-- ==== Sys2Proof/Word.lean ====
section
/-! DEFINITION. The two bit-vector types of MBC-CSR: the 16-bit register word (R15, R20, R61) and the level of a
pin (R40). Nothing wider and nothing narrower crosses the block (R62). -/

namespace Sys2Proof

/-- `u16`: one register, one address, one length, one data word of a bus request (R15, R61, R94). -/
abbrev Word := BitVec 16

/-- The answer of a `LevelRead`: low (0) or high (1) (R40, R100). -/
abbrev Level := BitVec 1

end Sys2Proof
end

