-- ==== Sys2Proof/Config.lean ====
section
/-! DEFINITION. The implementation parameters of the block (R5 to R14), the reference configuration, and the two
free values of the environment (R36, R40). A `Config` is fixed at construction (R41). -/

namespace Sys2Proof

/-- `ADDR_POLICY` (R7): how a holding-register request is validated. -/
inductive AddrPolicy where
  | wholeBlock
  | subRange
deriving DecidableEq, Repr

/-- `DELAY_RX_POLICY` (R8): what plain Delay does to inbound transport bytes. -/
inductive DelayRxPolicy where
  | buffer
  | drop
deriving DecidableEq, Repr

/-- `SCHEDULE` (R14): which sequences of operations the environment may present. -/
inductive Schedule where
  | free
  | canonical
deriving DecidableEq, Repr

/-- The five commands of the code to handler mapping (R101, R177). -/
inductive Cmd where
  | setPin
  | getPin
  | delay
  | delayX
  | test
deriving DecidableEq, Repr

/-- The parameters of 00_scope.md section 3. `NI` = 3 is fixed (R6) and is no field. The two pin sets are held as
lists in rising order, so that equal sets are equal data (`Config.wf`). -/
structure Config where
  /-- `N`, the number of holding registers (R5). -/
  n : Nat
  /-- `ADDR_POLICY` (R7). -/
  addrPolicy : AddrPolicy
  /-- `DELAY_RX_POLICY` (R8). -/
  delayRxPolicy : DelayRxPolicy
  /-- `CODE_SETPIN` (R9). -/
  codeSetPin : BitVec 14
  /-- `CODE_GETPIN` (R9). -/
  codeGetPin : BitVec 14
  /-- `CODE_DELAY` (R9). -/
  codeDelay : BitVec 14
  /-- `CODE_DELAYX` (R9). -/
  codeDelayX : BitVec 14
  /-- `CODE_TEST` (R9). -/
  codeTest : BitVec 14
  /-- `PROTO_VERSION` (R10). -/
  protoVersion : Word
  /-- `FW_VERSION` (R10). -/
  fwVersion : Word
  /-- `SETPIN_ALLOWED`, the whitelist of SetPin (R11). -/
  setPinAllowed : List Word
  /-- `GETPIN_DISALLOWED`, the blacklist of GetPin (R11). -/
  getPinDisallowed : List Word
  /-- `BAUD`, the rate the transport was opened with at boot (R12). -/
  baud : Nat
  /-- `ERRCODE_IN_CMD` (R13). -/
  errcodeInCmd : Bool
  /-- `SCHEDULE` (R14). -/
  schedule : Schedule
deriving DecidableEq, Repr

/-- The code parameter of a command, `CODE_x` (R9). -/
def Config.code (c : Config) : Cmd → BitVec 14
  | .setPin => c.codeSetPin
  | .getPin => c.codeGetPin
  | .delay => c.codeDelay
  | .delayX => c.codeDelayX
  | .test => c.codeTest

/-- The reference configuration: the reference values of the table of 00_scope.md section 3.
DESIGN CHOICE (log entry 1): these values are the spec's own, no source gives them. -/
def Config.reference : Config where
  n := 8
  addrPolicy := .wholeBlock
  delayRxPolicy := .buffer
  codeSetPin := 1
  codeGetPin := 2
  codeDelay := 3
  codeDelayX := 4
  codeTest := 5
  protoVersion := 0x0100
  fwVersion := 0x0203
  setPinAllowed := [13]
  getPinDisallowed := [0, 1]
  baud := 19200
  errcodeInCmd := false
  schedule := .free

/-- FREE VALUE (R40, log entry 5): the answer of a `LevelRead` that no environment input has fixed, one draw per
event, indexed by the model's draw counter. -/
opaque Config.freeLevel : Nat → Level

/-- FREE VALUE (R36, R169, log entry 4): milliseconds that pass beyond what a rule demands, indexed by the model's
draw counter. -/
opaque Config.freeMs : Nat → Nat

end Sys2Proof
end

