-- ==== Sys2Proof/Bus.lean ====
section
/-! DEFINITION. What stands at the block's ports: the bus request of the transport as it is handed over (R94), the
request once decoded, the bus response (R95), and one line of the script of operations an environment presents
(R96, R107, R108). -/

namespace Sys2Proof

/-- The bus request format `BUSREQ` as the transport hands it over, undecoded (R94). -/
structure BusReq where
  kind : BitVec 2
  addr : Word
  len : Word
  values : List Word
deriving DecidableEq, Repr

/-- A decoded bus request, the operand of `POLL_CYCLE` (R150): one of the four kinds of R94. -/
inductive BusOp where
  | rdHold (addr len : Word)
  | wrHold (addr len : Word) (values : List Word)
  | rdIn (addr len : Word)
  | wrIn (addr len : Word) (values : List Word)
deriving DecidableEq, Repr

/-- The status of a bus response (R95, R125). -/
inductive Status where
  | ok
  | addressError
deriving DecidableEq, Repr

/-- The bus response format `BUSRSP` (R95): `rdata` is present only for a successful read. -/
structure BusRsp where
  status : Status
  rdata : Option (List Word)
deriving DecidableEq, Repr

/-- One operation as the execution context presents it, its bus request still undecoded: a bus request, the
dispatch strobe (which has no field, R96), or one of the three pseudo-operations (R108). -/
inductive PortOp where
  | bus (r : BusReq)
  | strobe
  | poll (r : Option BusReq)
  | call (x : Cmd) (args : List Word) (k : Word)
  | clrErr
deriving DecidableEq, Repr

/-- What is decoded: the command word in holding register 0, or an operation at the port (30_encoding.md). -/
inductive Raw where
  | cmdw (w : Word)
  | port (p : PortOp)
deriving DecidableEq, Repr

end Sys2Proof
end

