-- ==== Sys2Proof/Syntax.lean ====
section
/-! DEFINITION. The operations of MBC-CSR: one constructor for each row of spec/opcode_table.json. -/

namespace Sys2Proof

/-- The operations. The first seven are what the command word in `H[0]` selects (R101 to R103): their operands are
parameter registers, not part of the word (R91). The next four are the bus requests (R94), then the strobe (R96) and
the three pseudo-operations (R108). -/
inductive Instr where
  /-- `SETPIN` (R161). -/
  | setPin
  /-- `GETPIN` (R165). -/
  | getPin
  /-- `DELAY` (R168). -/
  | delay
  /-- `DELAYX` (R172). -/
  | delayX
  /-- `TEST` (R176). -/
  | test
  /-- `ILLCMD`, a pending command word whose code is none of the five (R144). -/
  | illCmd (code : BitVec 14)
  /-- `NOCMD`, a command word that is not pending, with its bits 14:0 (R141). -/
  | noCmd (rest : BitVec 15)
  /-- `RD_HOLD addr, len` (R121). -/
  | rdHold (addr len : Word)
  /-- `WR_HOLD addr, values` (R122). -/
  | wrHold (addr len : Word) (values : List Word)
  /-- `RD_IN addr, len` (R190). -/
  | rdIn (addr len : Word)
  /-- `WR_IN addr, values` (R191). -/
  | wrIn (addr len : Word) (values : List Word)
  /-- `DISPATCH` (R140). -/
  | dispatch
  /-- `POLL_CYCLE op?` (R150). -/
  | pollCycle (op : Option BusOp)
  /-- `CALL x(args)`, reading `k` registers back (R108). -/
  | call (x : Cmd) (args : List Word) (k : Word)
  /-- `CLRERR` (R108). -/
  | clrErr
deriving DecidableEq, Repr

end Sys2Proof
end

