-- ==== Sys2Proof/WellFormed.lean ====
section
/-! DEFINITION. What a configuration and an operation must satisfy to be one the spec admits. -/

namespace Sys2Proof

/-- The constraints of 00_scope.md section 3: 3 <= N <= 65535 (R5) and five pairwise distinct codes (R9). The two
pin sets are in rising order, which is the model's own canonical form of a set. -/
def Config.wf (c : Config) : Bool :=
  decide (3 ≤ c.n) && decide (c.n ≤ 65535) &&
  decide ([c.codeSetPin, c.codeGetPin, c.codeDelay, c.codeDelayX, c.codeTest].Nodup) &&
  decide (c.setPinAllowed.Pairwise (· < ·)) && decide (c.getPinDisallowed.Pairwise (· < ·))

/-- A write carries exactly `len` words (R67, R94). -/
def dataLengthOk (len : Word) (values : List Word) : Bool :=
  decide (values.length = len.toNat)

/-- The four kinds: only a `WR_HOLD` owes the block its data length; `WR_IN` ignores its operands (R191). -/
def BusOp.wf : BusOp → Bool
  | .rdHold _ _ => true
  | .wrHold _ len values => dataLengthOk len values
  | .rdIn _ _ => true
  | .wrIn _ _ _ => true

/-- Well-formed operations of the block with configuration `c`. An `ILLCMD` has a code outside the mapping (R102);
the write of a `CALL` has a length that fits 16 bits (R94, R108). -/
def Instr.wf (c : Config) : Instr → Bool
  | .setPin => true
  | .getPin => true
  | .delay => true
  | .delayX => true
  | .test => true
  | .illCmd code =>
    !([c.codeSetPin, c.codeGetPin, c.codeDelay, c.codeDelayX, c.codeTest].contains code)
  | .noCmd _ => true
  | .rdHold _ _ => true
  | .wrHold _ len values => dataLengthOk len values
  | .rdIn _ _ => true
  | .wrIn _ _ _ => true
  | .dispatch => true
  | .pollCycle none => true
  | .pollCycle (some op) => op.wf
  | .call _ args _ => decide (args.length + 1 ≤ 65535)
  | .clrErr => true

end Sys2Proof
end

