-- ==== Sys2Proof/Decode.lean ====
section
/-! DEFINITION. Decoding of the command word (R90 to R93, R101 to R103) and of what stands at the port (R94, R96,
R108), total and rejecting by name; after it the encoder, written from the same formats; last the numbering of
spec/opcode_table.json. -/

namespace Sys2Proof

/-! ### The command word format `CMDW` (R21, R90) -/

/-- `CMD.P`, bit 15. -/
def cmdPending (w : Word) : Bool := w.getLsbD 15

/-- `CMD.E`, bit 14. -/
def cmdError (w : Word) : Bool := w.getLsbD 14

/-- `CMD.CODE`, bits 13:0. -/
def cmdCode (w : Word) : BitVec 14 := w.extractLsb' 0 14

/-- Bits 14:0, everything a word that is not pending holds beside `P` (R103). -/
def cmdRest (w : Word) : BitVec 15 := w.extractLsb' 0 15

/-- `Route(code)` of R142: the code to handler mapping; `none` is the built-in fallback (R101, R144). -/
def route (c : Config) (code : BitVec 14) : Option Cmd :=
  if code = c.codeSetPin then some .setPin
  else if code = c.codeGetPin then some .getPin
  else if code = c.codeDelay then some .delay
  else if code = c.codeDelayX then some .delayX
  else if code = c.codeTest then some .test
  else none

/-- The operation that a command of the mapping is. -/
def cmdInstr : Cmd → Instr
  | .setPin => .setPin
  | .getPin => .getPin
  | .delay => .delay
  | .delayX => .delayX
  | .test => .test

/-- The operation a command word selects: every word selects one (R93, R101 to R103). Bit 14 takes no part in a
pending word. -/
def decodeCmd (c : Config) (w : Word) : Instr :=
  if cmdPending w then
    match route c (cmdCode w) with
    | some x => cmdInstr x
    | none => .illCmd (cmdCode w)
  else .noCmd (cmdRest w)

/-! ### The bus request format `BUSREQ` (R94) and the port -/

/-- Why a bus request is not one of the format of R94. -/
inductive DecodeError where
  /-- A `WR_HOLD` whose data has not `len` words: the precondition the transport owes the block (R67, R273). -/
  | dataLength
  /-- A read that carries data: `values` is present for the two writes only (R94). -/
  | dataOnRead
deriving DecidableEq, Repr

/-- A bus request decoded by its kind: 0 `RD_HOLD`, 1 `WR_HOLD`, 2 `RD_IN`, 3 `WR_IN` (R94). -/
def decodeBus (r : BusReq) : Except DecodeError BusOp :=
  if r.kind = 0 then
    if r.values = [] then .ok (.rdHold r.addr r.len) else .error .dataOnRead
  else if r.kind = 1 then
    if dataLengthOk r.len r.values then .ok (.wrHold r.addr r.len r.values) else .error .dataLength
  else if r.kind = 2 then
    if r.values = [] then .ok (.rdIn r.addr r.len) else .error .dataOnRead
  else .ok (.wrIn r.addr r.len r.values)

/-- The operation that a bus request alone is. -/
def busInstr : BusOp → Instr
  | .rdHold addr len => .rdHold addr len
  | .wrHold addr len values => .wrHold addr len values
  | .rdIn addr len => .rdIn addr len
  | .wrIn addr len values => .wrIn addr len values

/-- The write that a `CALL` begins with must have a length of 16 bits (R94, R108). -/
def decodeCall (x : Cmd) (args : List Word) (k : Word) : Except DecodeError Instr :=
  if args.length + 1 ≤ 65535 then .ok (.call x args k) else .error .dataLength

/-- An operation at the port decoded. -/
def decodePort : PortOp → Except DecodeError Instr
  | .bus r =>
    match decodeBus r with
    | .ok op => .ok (busInstr op)
    | .error e => .error e
  | .strobe => .ok .dispatch
  | .poll none => .ok (.pollCycle none)
  | .poll (some r) =>
    match decodeBus r with
    | .ok op => .ok (.pollCycle (some op))
    | .error e => .error e
  | .call x args k => decodeCall x args k
  | .clrErr => .ok .clrErr

/-- Both things the block decodes (30_encoding.md, opening). -/
def decode (c : Config) : Raw → Except DecodeError Instr
  | .cmdw w => .ok (decodeCmd c w)
  | .port p => decodePort p

/-! ### The encoder -/

/-- `LIT_x` = `0x8000 | CODE_x`, the literal a master writes (R92). -/
def literal (c : Config) (x : Cmd) : Word := 0x8000#16 ||| (c.code x).setWidth 16

/-- The fields of a bus request (R94). -/
def encodeBus : BusOp → BusReq
  | .rdHold addr len => ⟨0, addr, len, []⟩
  | .wrHold addr len values => ⟨1, addr, len, values⟩
  | .rdIn addr len => ⟨2, addr, len, []⟩
  | .wrIn addr len values => ⟨3, addr, len, values⟩

/-- What stands in `H[0]`, or at the port, for an operation. -/
def encode (c : Config) : Instr → Raw
  | .setPin => .cmdw (literal c .setPin)
  | .getPin => .cmdw (literal c .getPin)
  | .delay => .cmdw (literal c .delay)
  | .delayX => .cmdw (literal c .delayX)
  | .test => .cmdw (literal c .test)
  | .illCmd code => .cmdw (0x8000#16 ||| code.setWidth 16)
  | .noCmd rest => .cmdw (rest.setWidth 16)
  | .rdHold addr len => .port (.bus (encodeBus (.rdHold addr len)))
  | .wrHold addr len values => .port (.bus (encodeBus (.wrHold addr len values)))
  | .rdIn addr len => .port (.bus (encodeBus (.rdIn addr len)))
  | .wrIn addr len values => .port (.bus (encodeBus (.wrIn addr len values)))
  | .dispatch => .port .strobe
  | .pollCycle none => .port (.poll none)
  | .pollCycle (some op) => .port (.poll (some (encodeBus op)))
  | .call x args k => .port (.call x args k)
  | .clrErr => .port .clrErr

/-! ### The numbering of spec/opcode_table.json -/

/-- A `BUSREQ` as one number, in the order in which R94 lists its fields, from bit 0 up: `kind` in bits 1:0 (where
the table has it), `addr` in 17:2, `len` in 33:18, then the words of data, 16 bits each, for the two writes.
DESIGN CHOICE (log entry 8): the spec gives the fields and their widths, not their places but `kind`'s. -/
def busReqOfBits (w : Nat) : BusReq :=
  let kind : BitVec 2 := BitVec.ofNat 2 w
  let len : Word := BitVec.ofNat 16 (w >>> 18)
  { kind := kind
    addr := BitVec.ofNat 16 (w >>> 2)
    len := len
    values :=
      if kind.getLsbD 0 then
        (List.range len.toNat).map fun i => BitVec.ofNat 16 (w >>> (34 + 16 * i))
      else [] }

/-- What a row's bits stand for: 16 bits are a command word, no bits the strobe, which has no field (R96), any other
number of bits a bus request (log entry 8). -/
def rawOfTableWord (nbits w : Nat) : Raw :=
  if nbits = 16 then .cmdw (BitVec.ofNat 16 w)
  else if nbits = 0 then .port .strobe
  else .port (.bus (busReqOfBits (w % 2 ^ nbits)))

/-- The operation the decoder reads from a row's word, with the codes of the reference configuration, which are the
table's. -/
def decodeTableWord (nbits w : Nat) : Option Instr :=
  match decode Config.reference (rawOfTableWord nbits w) with
  | .ok i => some i
  | .error _ => none

end Sys2Proof
end

