-- ==== Sys2Proof/Machine/State.lean ====
section
/-! DEFINITION. The state of the block with the inputs its environment has presented and the outputs it has seen,
the reasons a step can stop, and the state after reset. -/

namespace Sys2Proof.Machine

open Sys2Proof

/-- The two directions the block configures a pin to (R17, R215). -/
inductive PinMode where
  | output
  | inputPullup
deriving DecidableEq, Repr

/-- What the block does to its collaborators (R17). -/
inductive Event where
  | levelWrite (pin value : Word)
  | dirConfig (pin : Word) (mode : PinMode)
  | levelRead (pin : Word) (level : Level)
  | wait (ms : Word)
  | xportSuspend
  | xportResume (baud : Nat)
deriving DecidableEq, Repr

/-- The two error codes a handler can fail with (R99). -/
inductive ErrCode where
  | illegalCmd
  | illegalParam
deriving DecidableEq, Repr

/-- What a handler returns (R142, R160). -/
inductive HandlerOutcome where
  | success
  | failure (ec : ErrCode)
deriving DecidableEq, Repr

/-- The states of the dispatcher that an operation can find (R27); Processing exists only inside `DISPATCH`. -/
inductive DispatcherState where
  | idle
  | pending
deriving DecidableEq, Repr

/-- The two word-addressed spaces (R60). -/
inductive Space where
  | hold
  | input
deriving DecidableEq, Repr

/-- How far the boot sequence of R244 has come: (1) the register file exists, (2) the three callbacks are
registered, (3) and (4) the transport is open and the loop runs. -/
inductive Boot where
  | created
  | registered
  | running
deriving DecidableEq, Repr

/-- The transport's condition (R37, R45): closed until boot opens it, open at a rate, or suspended inside an
exclusive delay. -/
inductive Xport where
  | closed
  | opened (baud : Nat)
  | suspended
deriving DecidableEq, Repr

/-- One line of the script of R107: an operation presented to the block, or a directive that fixes an input of the
environment (time advances by `d`, log entry 19; the next `LevelRead(pin)` answers `v`, log entry 5). -/
inductive Input where
  | op (p : PortOp)
  | tick (d : Nat)
  | level (pin : Word) (v : Level)
deriving DecidableEq, Repr

/-- The block has no fatal error, no fault state and no halt (R207, R272): no step ends in a fault, so there is no
reason for one. Safe: there is nothing a claim could excuse by a fault. -/
inductive Fault where
deriving DecidableEq, Repr

/-- The reasons a step has no meaning. -/
inductive Refusal where
  /-- Raised by no arm of `exec`: every operation of the table has its meaning. Safe. -/
  | notModelled (mnemonic : String)
  /-- Raised by `step` for a presented operation that is no `BUSREQ` of R94 or breaks the precondition of R67, and by
  `WR_HOLD` itself for data that has not `len` words: "the model has no step" (U12, D15, R273; log entry 10). Safe. -/
  | badRequest (e : DecodeError)
deriving DecidableEq, Repr

/-- The state. `cfg` is the construction-time configuration, carried beside the state proper and changed by no
operation (R41, log entry 1); `regs` is the block's whole persistent state (R20); `trace` and `responses` are its
outputs; `nowMs`, `script`, `levels` and `draws` are the environment's; `boot` and `xport` the condition of the
transport and the boot sequence. -/
structure State where
  /-- The parameters of 00_scope.md section 3 (R41). -/
  cfg : Config
  /-- The holding registers `H[0]` to `H[N-1]` (R20). -/
  regs : List Word
  /-- The output trace, oldest event first (R17, R42). -/
  trace : List Event
  /-- The bus responses given so far, oldest first (R95). -/
  responses : List BusRsp
  /-- Whole milliseconds since reset (R36). -/
  nowMs : Nat
  /-- The boot sequence (R244). -/
  boot : Boot
  /-- The transport's condition (R37, R45). -/
  xport : Xport
  /-- What the environment will present, next first (R18, R107). -/
  script : List Input
  /-- Answers fixed for the next `LevelRead` of a pin (R40, R107), one entry a pin, pins rising. -/
  levels : List (Word × Level)
  /-- The model's own counter of free draws (log entries 4 and 5). -/
  draws : Nat
deriving DecidableEq, Repr

/-- The state after reset of the block with configuration `c` (R43 to R45, R240): registers zero, time zero, trace
empty, transport closed. `responses`, `script`, `levels` and `draws` are the model's own (log entry 6). -/
def State.resetWith (c : Config) : State where
  cfg := c
  regs := List.replicate c.n 0
  trace := []
  responses := []
  nowMs := 0
  boot := .created
  xport := .closed
  script := []
  levels := []
  draws := 0

/-- The state after reset in the reference configuration. -/
def State.reset : State := State.resetWith Config.reference

end Sys2Proof.Machine
end

