-- ==== Sys2Proof/Machine/Flags.lean ====
section
/-! DEFINITION. The field writes to the command word (R106), the only flag computations there are (R30). Reading the
fields is in Decode.lean. -/

namespace Sys2Proof.Machine

open Sys2Proof

/-- `H[0][15] <- 0` (R106). -/
def clearPending (w : Word) : Word := w &&& 0x7FFF#16

/-- `H[0][14] <- 1` (R106). -/
def setError (w : Word) : Word := w ||| 0x4000#16

/-- `H[0][14] <- 0` (R106). -/
def clearError (w : Word) : Word := w &&& 0xBFFF#16

/-- `H[0][13:0] <- c` (R106). -/
def setCode (w : Word) (c : BitVec 14) : Word := (w &&& 0xC000#16) ||| c.setWidth 16

end Sys2Proof.Machine
end

