-- ==== Sys2Proof/Machine/Operands.lean ====
section
/-! DEFINITION. The registers by number and by name (R16, R20, R24), the operands a handler takes from them (R97,
R98, R100), the patterns of the error codes (R99) and the input registers (R31 to R35). -/

namespace Sys2Proof.Machine

open Sys2Proof

/-- `trunc_16(v)` = `v mod 65536` (R16, R105 b). -/
def trunc16 (v : Nat) : Word := BitVec.ofNat 16 v

/-- `sext_16(v)`: the 16-bit two's-complement pattern of a signed number (R16, R105 c). -/
def sext16 (v : Int) : Word := BitVec.ofInt 16 v

/-- `zext_16(level)` (R100). -/
def levelWord (v : Level) : Word := v.setWidth 16

/-- `H[i]`. Every rule reads with `i < N`; of a number past the file nothing is said, and nothing asks (log entry 15). -/
def State.H (s : State) (i : Nat) : Word := s.regs.getD i 0

/-- `H[i] <- v`. -/
def State.writeH (s : State) (i : Nat) (v : Word) : State := { s with regs := s.regs.set i v }

/-- `P[k]` = `H[k+1]` (R24). -/
def State.param (s : State) (k : Nat) : Word := s.H (k + 1)

/-- `CMD` = `H[0]` (R21). -/
def State.cmd (s : State) : Word := s.H 0

/-- The dispatcher's state is `CMD.P` (R27). -/
def State.dispatcher (s : State) : DispatcherState :=
  if cmdPending s.cmd then .pending else .idle

/-- The pin operand: all 16 bits of `P[0]`, no masking (R97). -/
def State.pinOperand (s : State) : Word := s.param 0

/-- The duration operand: all 16 bits of `P[0]`, unsigned (R98). -/
def State.msOperand (s : State) : Word := s.param 0

/-- SetPin's state operand: all 16 bits of `P[1]`, handed on unchanged (R100). -/
def State.stateOperand (s : State) : Word := s.param 1

/-- `pin` is in `SETPIN_ALLOWED` (R97, R161). -/
def setPinAllows (c : Config) (pin : Word) : Bool := c.setPinAllowed.contains pin

/-- `pin` is in `GETPIN_DISALLOWED` (R97, R165). -/
def getPinRejects (c : Config) (pin : Word) : Bool := c.getPinDisallowed.contains pin

/-- `ERR_ILLEGAL_CMD` = `sext_16(-1)`, `ERR_ILLEGAL_PARAM` = `sext_16(-2)` (R99). -/
def errPattern : ErrCode → Word
  | .illegalCmd => sext16 (-1)
  | .illegalParam => sext16 (-2)

/-- The low 14 bits of an error code, used under `ERRCODE_IN_CMD` (R13, R99). -/
def errLow (ec : ErrCode) : BitVec 14 := (errPattern ec).extractLsb' 0 14

/-- `[IN(0, t), IN(1, t), IN(2, t)]` (R31, R33 to R35). -/
def inputRegs (c : Config) (t : Nat) : List Word := [c.protoVersion, c.fwVersion, trunc16 t]

end Sys2Proof.Machine
end

