-- ==== Sys2Proof/Machine/Ops.lean ====
section
/-! DEFINITION. The operations every meaning is made of: validation and whole-range access (R64 to R70), events, time
and the environment's answers (R17, R36, R40, R169), bus responses (R95), and the two errors the block reports,
AddressError (R201) and CommandError (R203), with completion (R143). Neither error saves anything or is returned
from (R210, R211): there is no return operation. -/

namespace Sys2Proof.Machine

open Sys2Proof

/-- What executing an operation answers. -/
abbrev Result := Host.Outcome State Fault Refusal

/-- One operation, then another on the state it leaves (R75). -/
def andThen (r : Result) (f : State → Result) : Result :=
  match r with
  | .next s => f s
  | .fault e => .fault e
  | .refused e => .refused e

/-! ### Access to the two spaces -/

/-- `ValidHold(addr, len)` (R64); the sum is a natural number and does not wrap (R65). -/
def validHold (c : Config) (addr len : Nat) : Bool :=
  match c.addrPolicy with
  | .wholeBlock => decide (addr = 0) && decide (len ≤ c.n)
  | .subRange => decide (addr + len ≤ c.n)

/-- `ValidIn(addr, len)`, whatever `ADDR_POLICY` is (R68). -/
def validIn (addr len : Nat) : Bool := decide (addr + len ≤ 3)

/-- `MemRead(space, addr, n)` (R66): `n` consecutive words, of one state and at one time. -/
def memRead (s : State) (sp : Space) (addr n : Nat) : List Word :=
  match sp with
  | .hold => (s.regs.drop addr).take n
  | .input => ((inputRegs s.cfg s.nowMs).drop addr).take n

/-- `H[addr+i] <- vs[i]` for every word of `vs` (R67). -/
def writeWords (regs : List Word) (addr : Nat) : List Word → List Word
  | [] => regs
  | v :: vs => writeWords (regs.set addr v) (addr + 1) vs

/-- `MemWrite(HOLD, addr, |vs|, vs)` (R67). There is no write to the input space. -/
def memWrite (s : State) (addr : Nat) (vs : List Word) : State :=
  { s with regs := writeWords s.regs addr vs }

/-! ### Responses and AddressError -/

/-- The response of a bus request, handed to the transport (R95, R124). -/
def State.respond (s : State) (r : BusRsp) : State := { s with responses := s.responses ++ [r] }

/-- `raise AddressError` (R201): the status, no data, and nothing else changes. -/
def raiseAddressError (s : State) : State := s.respond ⟨.addressError, none⟩

/-! ### Events, time, levels -/

/-- `emit` (R16, R17). -/
def State.emit (s : State) (e : Event) : State := { s with trace := s.trace ++ [e] }

/-- `emit XportSuspend`: the transport is suspended (R37, R172). -/
def emitSuspend (s : State) : State := { s.emit .xportSuspend with xport := .suspended }

/-- `emit XportResume(BAUD)`: the transport is open again at the boot-time rate (R12, R172). -/
def emitResume (s : State) : State :=
  { s.emit (.xportResume s.cfg.baud) with xport := .opened s.cfg.baud }

/-- Time passes by `d` milliseconds and by a free amount more, which may be 0 (R36, log entry 4). -/
def passTime (d : Nat) (s : State) : State :=
  { s with nowMs := s.nowMs + d + Config.freeMs s.draws, draws := s.draws + 1 }

/-- `emit Wait(ms)`: time advances by at least `ms` (R169). -/
def emitWait (ms : Word) (s : State) : State := passTime ms.toNat (s.emit (.wait ms))

/-- The directive `LEVEL pin := v` (R107): a later one for the same pin takes the earlier one's place. -/
def setLevel (pin : Word) (v : Level) : List (Word × Level) → List (Word × Level)
  | [] => [(pin, v)]
  | (p, w) :: rest =>
    if pin < p then (pin, v) :: (p, w) :: rest
    else if pin = p then (pin, v) :: rest
    else (p, w) :: setLevel pin v rest

/-- The environment's answer to one `LevelRead(pin)` (R40): the one fixed for it, used up by the read, or else a
free draw (log entry 5). -/
def drawLevel (pin : Word) (s : State) : Level × State :=
  match s.levels.lookup pin with
  | some v => (v, { s with levels := s.levels.filter fun e => e.1 != pin })
  | none => (Config.freeLevel s.draws, { s with draws := s.draws + 1 })

/-- `level <- emit LevelRead(pin)` (R165). -/
def emitLevelRead (pin : Word) (s : State) : Level × State :=
  ((drawLevel pin s).1, (drawLevel pin s).2.emit (.levelRead pin (drawLevel pin s).1))

/-! ### CommandError and completion -/

/-- `fail(ec)` (R203): `E` <- 1, `P[0]` <- the whole pattern, and under `ERRCODE_IN_CMD` its low 14 bits into
`CODE`. -/
def failCommand (ec : ErrCode) (s : State) : State :=
  let s1 := (s.writeH 0 (setError s.cmd)).writeH 1 (errPattern ec)
  if s.cfg.errcodeInCmd then s1.writeH 0 (setCode s1.cmd (errLow ec)) else s1

/-- `Complete(outcome)` (R143): the outcome is recorded, then `P` is cleared, always and last. -/
def complete (o : HandlerOutcome) (s : State) : State :=
  let s1 :=
    match o with
    | .success => s.writeH 0 (clearError s.cmd)
    | .failure ec => failCommand ec s
  s1.writeH 0 (clearPending s1.cmd)

/-- One handler run to its end, then completion (R140, R148). -/
def runHandler (h : State → HandlerOutcome × State) (s : State) : Result :=
  .next (complete (h s).1 (h s).2)

end Sys2Proof.Machine
end

