-- ==== Sys2Proof/Machine/BusAccess.lean ====
section
/-! DEFINITION. Bus access to the holding registers (40_bus_access.md). -/

namespace Sys2Proof.Machine

open Sys2Proof

/-- `RD_HOLD addr, len` (R121). -/
def execRdHold (addr len : Word) (s : State) : Result :=
  if validHold s.cfg addr.toNat len.toNat then
    .next (s.respond ⟨.ok, some (memRead s .hold addr.toNat len.toNat)⟩)
  else .next (raiseAddressError s)

/-- `WR_HOLD addr, values` (R122). Data that has not `len` words breaks the precondition of R67, and there is no step
for it (D15, U12). -/
def execWrHold (addr len : Word) (values : List Word) (s : State) : Result :=
  if dataLengthOk len values then
    if validHold s.cfg addr.toNat len.toNat then
      .next ((memWrite s addr.toNat values).respond ⟨.ok, none⟩)
    else .next (raiseAddressError s)
  else .refused (.badRequest .dataLength)

end Sys2Proof.Machine
end

