-- ==== Sys2Proof/Machine/Handlers.lean ====
section
/-! DEFINITION. The five command handlers (42_handlers.md) and the meaning of each command: its handler, then
completion. A meaning is what a `DISPATCH` runs once the command word has selected it: that it looks at no command word
itself is DEDUCED from R140 and R142 (log entry 2). The collaborators complete (log entry 11). -/

namespace Sys2Proof.Machine

open Sys2Proof

/-- `SetPin()` (R161): validation before any event (R162), level before direction (R163). -/
def setPinHandler (s : State) : HandlerOutcome × State :=
  if setPinAllows s.cfg s.pinOperand then
    (.success, (s.emit (.levelWrite s.pinOperand s.stateOperand)).emit
      (.dirConfig s.pinOperand .output))
  else (.failure .illegalParam, s)

/-- `GetPin()` (R165): validation, pulled-up input, sample, result into `P[1]` = `H[2]`. -/
def getPinHandler (s : State) : HandlerOutcome × State :=
  if getPinRejects s.cfg s.pinOperand then (.failure .illegalParam, s)
  else
    let r := emitLevelRead s.pinOperand (s.emit (.dirConfig s.pinOperand .inputPullup))
    (.success, r.2.writeH 2 (levelWord r.1))

/-- `DelayExclusive()` (R172): suspend, wait, resume, on every path (R173). -/
def delayXHandler (s : State) : HandlerOutcome × State :=
  (.success, emitResume (emitWait s.msOperand (emitSuspend s)))

/-- `Delay()` (R168); under `DELAY_RX_POLICY` = `DROP` it is DelayExclusive (R8). -/
def delayHandler (s : State) : HandlerOutcome × State :=
  match s.cfg.delayRxPolicy with
  | .drop => delayXHandler s
  | .buffer => (.success, emitWait s.msOperand s)

/-- `Test()` (R176). -/
def testHandler (s : State) : HandlerOutcome × State := (.success, s)

/-- `SETPIN` (R161). -/
def execSetPin (s : State) : Result := runHandler setPinHandler s

/-- `GETPIN` (R165). -/
def execGetPin (s : State) : Result := runHandler getPinHandler s

/-- `DELAY` (R168). -/
def execDelay (s : State) : Result := runHandler delayHandler s

/-- `DELAYX` (R172). -/
def execDelayX (s : State) : Result := runHandler delayXHandler s

/-- `TEST` (R176). -/
def execTest (s : State) : Result := runHandler testHandler s

end Sys2Proof.Machine
end

