-- ==== Sys2Proof/Machine/Dispatcher.lean ====
section
/-! DEFINITION. The dispatcher (41_dispatch.md): the fallback for an unknown command, the idle dispatch, and
`DISPATCH` itself. -/

namespace Sys2Proof.Machine

open Sys2Proof

/-- `IllCmd()` (R144): reads nothing, emits nothing, fails. -/
def illCmdHandler (s : State) : HandlerOutcome × State := (.failure .illegalCmd, s)

/-- `ILLCMD` (R144). -/
def execIllCmd (s : State) : Result := runHandler illCmdHandler s

/-- `NOCMD` (R141): an idle dispatch does nothing at all. -/
def execNoCmd (s : State) : Result := .next s

/-- `DISPATCH` (R140): idle, it does nothing; pending, exactly one handler runs (R142) and completion follows. -/
def execDispatch (s : State) : Result :=
  if cmdPending s.cmd then
    match route s.cfg (cmdCode s.cmd) with
    | some .setPin => execSetPin s
    | some .getPin => execGetPin s
    | some .delay => execDelay s
    | some .delayX => execDelayX s
    | some .test => execTest s
    | none => execIllCmd s
  else execNoCmd s

end Sys2Proof.Machine
end

