-- ==== Sys2Proof/Machine/Reporter.lean ====
section
/-! DEFINITION. The version and status reporter (43_status_reporter.md). -/

namespace Sys2Proof.Machine

open Sys2Proof

/-- `RD_IN addr, len` (R190): one sample of the time for the whole request. -/
def execRdIn (addr len : Word) (s : State) : Result :=
  if validIn addr.toNat len.toNat then
    .next (s.respond ⟨.ok, some (memRead s .input addr.toNat len.toNat)⟩)
  else .next (raiseAddressError s)

/-- `WR_IN` (R191): refused with AddressError, whatever its operands, which are all ignored, the number of its words
among them (log entry 9). -/
def execWrIn (s : State) : Result := .next (raiseAddressError s)

end Sys2Proof.Machine
end

