-- ==== Sys2Proof/Machine/Pseudo.lean ====
section
/-! DEFINITION. The three pseudo-operations (R108, R150), each the sequence it abbreviates, in one step (log entry
16). The response of a cycle's request stands before what its `DISPATCH` does (log entry 13). -/

namespace Sys2Proof.Machine

open Sys2Proof

/-- One bus request, performed whole (R71, R150). -/
def performBus (op : BusOp) (s : State) : Result :=
  match op with
  | .rdHold addr len => execRdHold addr len s
  | .wrHold addr len values => execWrHold addr len values s
  | .rdIn addr len => execRdIn addr len s
  | .wrIn _ _ _ => execWrIn s

/-- `POLL_CYCLE op?` (R150): the bus request if there is one, then `DISPATCH`. -/
def execPollCycle (op : Option BusOp) (s : State) : Result :=
  match op with
  | some b => andThen (performBus b s) execDispatch
  | none => execDispatch s

/-- The write a `CALL` begins with: the literal and the arguments, at address 0 (R108). -/
def callWrite (c : Config) (x : Cmd) (args : List Word) : BusOp :=
  .wrHold 0 (BitVec.ofNat 16 (args.length + 1)) (literal c x :: args)

/-- `CALL x(args)` (R108): a poll cycle that writes, then one that reads `k` registers back. -/
def execCall (x : Cmd) (args : List Word) (k : Word) (s : State) : Result :=
  andThen (execPollCycle (some (callWrite s.cfg x args)) s)
    (execPollCycle (some (.rdHold 0 k)))

/-- `CLRERR` (R108): `WR_HOLD 0, [0x0000]`. -/
def execClrErr (s : State) : Result := execWrHold 0 1 [0] s

end Sys2Proof.Machine
end

