-- ==== Sys2Proof/Machine/Dispatch.lean ====
section
/-! DEFINITION. One arm per operation of spec/opcode_table.json, each a direct call of its meaning. -/

namespace Sys2Proof.Machine

open Sys2Proof

def exec (i : Instr) (s : State) : Host.Outcome State Fault Refusal :=
  match i with
  | .setPin => Sys2Proof.Machine.execSetPin s
  | .getPin => Sys2Proof.Machine.execGetPin s
  | .delay => Sys2Proof.Machine.execDelay s
  | .delayX => Sys2Proof.Machine.execDelayX s
  | .test => Sys2Proof.Machine.execTest s
  | .illCmd _ => Sys2Proof.Machine.execIllCmd s
  | .noCmd _ => Sys2Proof.Machine.execNoCmd s
  | .rdHold addr len => Sys2Proof.Machine.execRdHold addr len s
  | .wrHold addr len values => Sys2Proof.Machine.execWrHold addr len values s
  | .rdIn addr len => Sys2Proof.Machine.execRdIn addr len s
  | .wrIn _ _ _ => Sys2Proof.Machine.execWrIn s
  | .dispatch => Sys2Proof.Machine.execDispatch s
  | .pollCycle op => Sys2Proof.Machine.execPollCycle op s
  | .call x args k => Sys2Proof.Machine.execCall x args k s
  | .clrErr => Sys2Proof.Machine.execClrErr s

end Sys2Proof.Machine
end

