-- ==== Sys2Proof/Machine/Fetch.lean ====
section
/-! DEFINITION. What stands around one operation: the boot sequence (R244), the environment's directives (R107), the
time that passes (R36), and how a table word is presented. -/

namespace Sys2Proof.Machine

open Sys2Proof

/-- R244 (2): the three callbacks are registered with the transport. -/
def bootRegister (s : State) : State := passTime 0 { s with boot := .registered }

/-- R244 (3), (4): `begin(BAUD)` opens the transport and the loop is entered; no event is emitted (R242). -/
def bootOpen (s : State) : State :=
  passTime 0 { s with boot := .running, xport := .opened s.cfg.baud }

/-- `TICK d` (R107): `now_ms` advances by `d` and no state of the block changes.
DESIGN CHOICE (log entry 19): the `d` milliseconds come on top of the free time that passes at every operation; a script's
`TICK` lines do not fix how much passes elsewhere. -/
def doTick (d : Nat) (s : State) : State := { s with nowMs := s.nowMs + d }

/-- `LEVEL pin := v` (R107). -/
def doLevel (pin : Word) (v : Level) (s : State) : State :=
  { s with levels := setLevel pin v s.levels }

/-- Time may pass by any amount at every operation (R36). The model lets it pass after the operation (log entry 4), and
whether or not the script has `TICK` lines (log entry 19). -/
def elapse (r : Result) : Result := andThen r fun s => .next (passTime 0 s)

/-- One operation of the running loop: the next line of the script, or, where the environment presents nothing, a
cycle with no bus request, which is `DISPATCH` (R150, log entry 7). -/
def stepRunning (s : State) : Result :=
  match s.script with
  | [] => elapse (exec .dispatch s)
  | .tick d :: rest => .next (doTick d { s with script := rest })
  | .level pin v :: rest => .next (doLevel pin v { s with script := rest })
  | .op p :: rest =>
    match decodePort p with
    | .ok i => elapse (exec i { s with script := rest })
    | .error e => .refused (.badRequest e)

/-- The state whose next step runs the operation of a raw encoding: boot is over, and the operation is presented
next; a command word is stored in `H[0]` and the strobe presented, which is how a command word comes to run. -/
def presentRaw (s : State) (r : Raw) : State :=
  match r with
  | .cmdw w =>
    { s.writeH 0 w with
      boot := .running, xport := .opened s.cfg.baud, script := .op .strobe :: s.script }
  | .port p =>
    { s with boot := .running, xport := .opened s.cfg.baud, script := .op p :: s.script }

end Sys2Proof.Machine
end

