-- ==== Sys2Proof/Machine/Step.lean ====
section
/-! DEFINITION. One step of the machine, and a table word placed where the next step finds it. -/

namespace Sys2Proof.Machine

open Sys2Proof

/-- One step: the next stage of the boot sequence (R244), or one atomic operation of the loop (R18). -/
def step (s : State) : Host.Outcome State Fault Refusal :=
  match s.boot with
  | .created => .next (bootRegister s)
  | .registered => .next (bootOpen s)
  | .running => stepRunning s

/-- The table's word `w` of `nbits` bits, presented so that the very next step runs it (log entries 7 and 8). -/
def State.withFetchWord (s : State) (nbits w : Nat) : State :=
  presentRaw s (rawOfTableWord nbits w)

end Sys2Proof.Machine
end

