-- ==== Sys2Proof/Safety.lean ====
section
/-! DEFINITION. The terms claims are made in: when a state is one of the spec's, which scripts a `SCHEDULE` admits
(R14), the discipline of the output trace (R161, R165, R172), and what the trace says of a pin (R39, R257). -/

namespace Sys2Proof.Machine

open Sys2Proof

/-- The register file is one of the configuration: `N` registers, the parameters within their ranges (R5, R20). -/
abbrev State.Sized (s : State) : Prop := s.cfg.wf = true ∧ s.regs.length = s.cfg.n

/-- The canonical form of the fixed level answers: one entry a pin, pins rising. -/
abbrev levelsWf (l : List (Word × Level)) : Prop := l.Pairwise fun a b => a.1 < b.1

/-- The transport is open at `BAUD` whenever the loop runs, and closed before (R37, R45, R244). -/
def State.transportOk (s : State) : Bool :=
  match s.boot with
  | .running => decide (s.xport = .opened s.cfg.baud)
  | .created | .registered => decide (s.xport = .closed)

/-- The trace is a sequence of what one command emits: SetPin's pair on an allowed pin, GetPin's pair on a pin not
refused, a wait, or the suspend, wait, resume of an exclusive delay at `BAUD` (95_test_vectors.md, laws 8 to 10). -/
def traceOk (c : Config) : List Event → Bool
  | [] => true
  | .levelWrite p _ :: .dirConfig q .output :: r => decide (p = q) && setPinAllows c p && traceOk c r
  | .dirConfig p .inputPullup :: .levelRead q _ :: r =>
    decide (p = q) && !getPinRejects c p && traceOk c r
  | .wait _ :: r => traceOk c r
  | .xportSuspend :: .wait _ :: .xportResume b :: r => decide (b = c.baud) && traceOk c r
  | _ => false

/-- The invariant of the machine. -/
structure State.Inv (s : State) : Prop where
  sized : s.Sized
  levels : levelsWf s.levels
  transport : s.transportOk = true
  trace : traceOk s.cfg s.trace = true

/-- An operation that is one or more whole poll cycles: `POLL_CYCLE`, the strobe alone, which is `POLL_CYCLE` alone,
and `CALL`, which is two of them (R108, R150). -/
def PortOp.isPollCycle : PortOp → Bool
  | .bus _ => false
  | .strobe => true
  | .poll _ => true
  | .call _ _ _ => true
  | .clrErr => false

/-- What the environment may present under a `SCHEDULE` (R14). -/
def Input.admitted (sch : Schedule) : Input → Bool
  | .op p =>
    match sch with
    | .free => true
    | .canonical => PortOp.isPollCycle p
  | .tick _ => true
  | .level _ _ => true

/-- Everything still to be presented is admitted by the configuration's `SCHEDULE` (R14). -/
def State.scriptAdmitted (s : State) : Bool := s.script.all (Input.admitted s.cfg.schedule)

/-- The direction the last `DirConfig` of a pin gave it, if there was one (R39, R257). -/
def pinMode (pin : Word) : List Event → Option PinMode
  | [] => none
  | .dirConfig p m :: r => (pinMode pin r).or (if p = pin then some m else none)
  | _ :: r => pinMode pin r

/-- The value the last `LevelWrite` of a pin gave it, if there was one (R39, R257). -/
def pinValue (pin : Word) : List Event → Option Word
  | [] => none
  | .levelWrite p v :: r => (pinValue pin r).or (if p = pin then some v else none)
  | _ :: r => pinValue pin r

end Sys2Proof.Machine
end

