-- ==== Sys2Proof/Certificates/Slice0/Obligations.lean ====
section
/-! DEFINITION. The statements about MBC-CSR. A next state written `{ s with f := v }` is the statement's frame: every
field not named is the one of `s`, the configuration, the trace, the responses and the registers among them. -/

open Sys2Proof Sys2Proof.Machine

/-! ### Words the statements are written with -/

/-- The range a holding request may cover (R64), in the words of the rule. -/
def Sys2Proof.Machine.HoldRange (c : Config) (addr len : Word) : Prop :=
  (c.addrPolicy = .wholeBlock → addr.toNat = 0 ∧ len.toNat ≤ c.n) ∧
  (c.addrPolicy = .subRange → addr.toNat + len.toNat ≤ c.n)

/-- The state after a refused bus request: one response, `ADDRESS_ERROR` with no data (R201). -/
def Sys2Proof.Machine.afterAddressError (s : State) : State :=
  { s with responses := s.responses ++ [⟨.addressError, none⟩] }

/-- The command word after a success: `E` and `P` clear, `CODE` kept (R143, R106). -/
def Sys2Proof.Machine.cmdAfterSuccess (w : Word) : Word := w &&& 0x3FFF#16

/-- The command word after a failure with the pattern `ec`: `E` set, `P` clear, `CODE` kept, or the low 14 bits of the
pattern under `ERRCODE_IN_CMD` (R143, R203). -/
def Sys2Proof.Machine.cmdAfterFailure (c : Config) (ec w : Word) : Word :=
  0x4000#16 ||| ((if c.errcodeInCmd then ec else w) &&& 0x3FFF#16)

/-- The state after a failed command: `CMD` and `P[0]` written, nothing else (R203). -/
def Sys2Proof.Machine.afterFailure (s : State) (ec : Word) : State :=
  { s with regs := (s.regs.set 0 (cmdAfterFailure s.cfg ec s.cmd)).set 1 ec }

/-- The block with the other addressing policy and the same everything else (R7, R261). -/
def Sys2Proof.Machine.State.withPolicy (s : State) (p : AddrPolicy) : State :=
  { s with cfg := { s.cfg with addrPolicy := p } }

/-- `CMD.P` = 1 and `CMD.CODE` = `CODE_x`: the encoding line of a command's rule (R161, R165, R168, R172, R176). -/
def Sys2Proof.Machine.Selected (s : State) (x : Cmd) : Prop :=
  cmdPending s.cmd = true ∧ cmdCode s.cmd = s.cfg.code x

/-- A pending command word whose code is none of the five: the encoding line of `ILLCMD` (R144). -/
def Sys2Proof.Machine.Unmapped (s : State) : Prop :=
  cmdPending s.cmd = true ∧ ∀ x, cmdCode s.cmd ≠ s.cfg.code x

/-- The operations that have no pin to touch in a state (R257): all but a SetPin on an allowed pin, a GetPin on a pin that
is not refused, a `DISPATCH` that runs one of these two, and the two abbreviations that are sequences. -/
def Sys2Proof.Machine.LeavesPins (s : State) : Instr → Prop
  | .setPin => s.H 1 ∉ s.cfg.setPinAllowed
  | .getPin => s.H 1 ∈ s.cfg.getPinDisallowed
  | .dispatch => (Selected s .setPin → s.H 1 ∉ s.cfg.setPinAllowed) ∧
      (Selected s .getPin → s.H 1 ∈ s.cfg.getPinDisallowed)
  | .delay | .delayX | .test | .illCmd _ | .noCmd _ => True
  | .rdHold _ _ | .wrHold _ _ _ | .rdIn _ _ | .wrIn _ _ _ | .clrErr => True
  | .pollCycle _ | .call _ _ _ => False

/-! ### Encoding -/

/-- O1. Decoding what the encoder writes for a well-formed operation gives it back, with every operand (30_encoding.md
sections 1 and 3; the operations at the port are the script notation of R107, the spec's own, D29). -/
def Obligations.DecodeOfEncodeIsIdentity : Prop :=
  ∀ (c : Config) (i : Instr), c.wf = true → i.wf c = true → decode c (encode c i) = .ok i

/-- O2. R93: a command `x` is selected by `(CMD & 0xBFFF) = (0x8000 | CODE_x)`. Decision D11 of the spec. -/
def Obligations.CommandSelectedByMatchAndMask : Prop :=
  ∀ (c : Config) (x : Cmd) (w : Word), c.wf = true →
    (decodeCmd c w = cmdInstr x ↔ w &&& 0xBFFF#16 = 0x8000#16 ||| (c.code x).setWidth 16)

/-- O3. Every command word has one meaning, and encoding that meaning gives the word back, but for bit 14 of a pending
word, which the decoder masks away (R93, R102, R103). Decision D11 of the spec. -/
def Obligations.EncodeOfDecodedCommandWord : Prop :=
  ∀ (c : Config) (w : Word), c.wf = true →
    encode c (decodeCmd c w) = .cmdw (if cmdPending w then w &&& 0xBFFF#16 else w)

/-- O4. The words of spec/opcode_table.json and of 95_test_vectors.md decode to what the tables say, in the reference
configuration (values of the spec's own, D7; log entry 1). -/
def Obligations.ReferenceWordsDecode : Prop :=
  decodeCmd Config.reference 0x8001 = .setPin ∧ decodeCmd Config.reference 0x8002 = .getPin ∧
  decodeCmd Config.reference 0x8003 = .delay ∧ decodeCmd Config.reference 0x8004 = .delayX ∧
  decodeCmd Config.reference 0x8005 = .test ∧ decodeCmd Config.reference 0xC005 = .test ∧
  decodeCmd Config.reference 0x8000 = .illCmd 0 ∧ decodeCmd Config.reference 0x8123 = .illCmd 0x123 ∧
  decodeCmd Config.reference 0x4123 = .noCmd 0x4123 ∧ decodeCmd Config.reference 0x0000 = .noCmd 0

/-- O5. The four request kinds (R94; their numbering is decision D25 of the spec), and the data a request carries:
a `WR_HOLD` that has not `len` words has no step (R67, D15, U12). That a `WR_IN` is decoded with any number of words is
DEDUCED (log entry 9). -/
def Obligations.RequestKindsDecode : Prop :=
  ∀ (a l : Word) (vs : List Word),
    decodePort (.bus ⟨0, a, l, []⟩) = .ok (.rdHold a l) ∧
    (vs.length = l.toNat → decodePort (.bus ⟨1, a, l, vs⟩) = .ok (.wrHold a l vs)) ∧
    (vs.length ≠ l.toNat → decodePort (.bus ⟨1, a, l, vs⟩) = .error .dataLength) ∧
    decodePort (.bus ⟨2, a, l, []⟩) = .ok (.rdIn a l) ∧
    decodePort (.bus ⟨3, a, l, vs⟩) = .ok (.wrIn a l vs)

/-! ### Bus access to the holding registers -/

/-- O6. `RD_HOLD` (R121), the request of kind 0: in range, the words `H[addr]`, …, `H[addr+len-1]` and `OK`, and nothing
changes; out of range, AddressError. -/
def Obligations.ReadHoldingRegisters : Prop :=
  ∀ (s : State) (addr len : Word), s.Sized →
    decodePort (.bus ⟨0, addr, len, []⟩) = .ok (.rdHold addr len) ∧
    (HoldRange s.cfg addr len → ∃ ws : List Word,
      exec (.rdHold addr len) s = .next { s with responses := s.responses ++ [⟨.ok, some ws⟩] } ∧
      ws.length = len.toNat ∧ ∀ i, i < len.toNat → ws[i]? = some (s.H (addr.toNat + i))) ∧
    (¬ HoldRange s.cfg addr len → exec (.rdHold addr len) s = .next (afterAddressError s))

/-- O7. `WR_HOLD` (R122), the request of kind 1: in range, word `i` goes to `H[addr+i]` unchanged and every other register
keeps its value; so `P` and `E` take bits 15 and 14 of the word written to address 0. Out of range, AddressError. -/
def Obligations.WriteHoldingRegisters : Prop :=
  ∀ (s : State) (addr len : Word) (vs : List Word), s.Sized → vs.length = len.toNat →
    decodePort (.bus ⟨1, addr, len, vs⟩) = .ok (.wrHold addr len vs) ∧
    (HoldRange s.cfg addr len → ∃ t : State,
      exec (.wrHold addr len vs) s = .next t ∧
      t = { s with regs := t.regs, responses := s.responses ++ [⟨.ok, none⟩] } ∧
      t.regs.length = s.regs.length ∧
      (∀ i, i < len.toNat → some (t.H (addr.toNat + i)) = vs[i]?) ∧
      (∀ j, j < addr.toNat ∨ addr.toNat + len.toNat ≤ j → t.H j = s.H j) ∧
      (∀ v rest, addr.toNat = 0 → vs = v :: rest →
        cmdPending t.cmd = cmdPending v ∧ cmdError t.cmd = cmdError v)) ∧
    (¬ HoldRange s.cfg addr len → exec (.wrHold addr len vs) s = .next (afterAddressError s))

/-- O8. A `WR_HOLD` whose data has not `len` words has no step: the precondition the transport owes the block (R67,
R273; decision D15 of the spec, "a model should refuse"). -/
def Obligations.WriteWithWrongDataLengthHasNoStep : Prop :=
  ∀ (s : State) (addr len : Word) (vs : List Word), vs.length ≠ len.toNat →
    exec (.wrHold addr len vs) s = .refused (.badRequest .dataLength)

/-- O9. `addr + len` does not wrap: a sum of 65536 or more is refused under both policies and by `RD_IN` (R65, R68;
decision D14 of the spec). -/
def Obligations.RangeSumDoesNotWrap : Prop :=
  ∀ (s : State) (addr len : Word) (vs : List Word), s.cfg.wf = true →
    65536 ≤ addr.toNat + len.toNat → vs.length = len.toNat →
    exec (.rdHold addr len) s = .next (afterAddressError s) ∧
    exec (.wrHold addr len vs) s = .next (afterAddressError s) ∧
    exec (.rdIn addr len) s = .next (afterAddressError s)

/-- O10. A master that uses only accesses from address 0 works under both addressing policies (R261): the same
request ends in the same way under the other policy. -/
def Obligations.AccessFromZeroAgreesUnderBothPolicies : Prop :=
  ∀ (s : State) (p : AddrPolicy) (len : Word) (vs : List Word), vs.length = len.toNat →
    (∃ t, exec (.rdHold 0 len) s = .next t ∧
      exec (.rdHold 0 len) (s.withPolicy p) = .next (t.withPolicy p)) ∧
    (∃ t, exec (.wrHold 0 len vs) s = .next t ∧
      exec (.wrHold 0 len vs) (s.withPolicy p) = .next (t.withPolicy p))

/-! ### The version and status reporter -/

/-- O11. `RD_IN` (R190), the request of kind 2: in range, `PROTO_VERSION` at 0, `FW_VERSION` at 1, the low 16 bits of the time at 2, all of
one sample, whatever the holding registers and the policy are, and nothing changes; out of range, AddressError. -/
def Obligations.ReadInputRegisters : Prop :=
  ∀ (s : State) (addr len : Word),
    decodePort (.bus ⟨2, addr, len, []⟩) = .ok (.rdIn addr len) ∧
    (addr.toNat + len.toNat ≤ 3 → ∃ ws : List Word,
      exec (.rdIn addr len) s = .next { s with responses := s.responses ++ [⟨.ok, some ws⟩] } ∧
      ws.length = len.toNat ∧
      ∀ i, i < len.toNat → ws[i]? = some
        (if addr.toNat + i = 0 then s.cfg.protoVersion
         else if addr.toNat + i = 1 then s.cfg.fwVersion
         else BitVec.ofNat 16 (s.nowMs % 65536))) ∧
    (3 < addr.toNat + len.toNat → exec (.rdIn addr len) s = .next (afterAddressError s))

/-- O12. `WR_IN` is refused whatever its operands, and nothing changes (R32, R191; that the request kind exists is
decision D24 of the spec). -/
def Obligations.WriteInputAlwaysRefused : Prop :=
  ∀ (s : State) (addr len : Word) (vs : List Word),
    exec (.wrIn addr len vs) s = .next (afterAddressError s)

/-- O13. Two reads of the uptime counter differ, modulo 65536, by the time between them (R193). -/
def Obligations.UptimeDifferenceModulo65536 : Prop :=
  ∀ (s u : State), s.nowMs ≤ u.nowMs → ∃ v w : Word,
    exec (.rdIn 2 1) s = .next { s with responses := s.responses ++ [⟨.ok, some [v]⟩] } ∧
    exec (.rdIn 2 1) u = .next { u with responses := u.responses ++ [⟨.ok, some [w]⟩] } ∧
    (w - v).toNat = (u.nowMs - s.nowMs) % 65536

/-! ### AddressError and responses -/

/-- O14. A bus request that ends with `ADDRESS_ERROR` carries no data and has changed nothing (R201). -/
def Obligations.AddressErrorHasNoEffect : Prop :=
  ∀ (op : BusOp) (s t : State) (r : BusRsp), exec (busInstr op) s = .next t →
    t.responses = s.responses ++ [r] → r.status = .addressError →
    r.rdata = none ∧ t = { s with responses := t.responses }

/-- O15. The complete list of causes of AddressError (R202): a holding request out of range, an input read out of
range, any `WR_IN`; no command raises it, since a `DISPATCH` gives no response at all. -/
def Obligations.AddressErrorCauses : Prop :=
  (∀ (op : BusOp) (s : State), op.wf = true →
    (exec (busInstr op) s = .next (afterAddressError s) ↔
      match op with
      | .rdHold a l => ¬ HoldRange s.cfg a l
      | .wrHold a l _ => ¬ HoldRange s.cfg a l
      | .rdIn a l => 3 < a.toNat + l.toNat
      | .wrIn _ _ _ => True)) ∧
  (∀ s t : State, exec .dispatch s = .next t → t.responses = s.responses)

/-- O16. Every bus request that completes gives exactly one response: data, of the length asked for, exactly for a
read that is `OK` (R95; the form of the response is decision D26 of the spec). -/
def Obligations.OneResponsePerRequest : Prop :=
  ∀ (op : BusOp) (s t : State), s.Sized → exec (busInstr op) s = .next t → ∃ r : BusRsp,
    t.responses = s.responses ++ [r] ∧
    match r.status, op with
    | .ok, .rdHold _ l => ∃ ws, r.rdata = some ws ∧ ws.length = l.toNat
    | .ok, .rdIn _ l => ∃ ws, r.rdata = some ws ∧ ws.length = l.toNat
    | _, _ => r.rdata = none

/-! ### The dispatcher -/

/-- O17. A `DISPATCH` in Idle does nothing (R141), and so does `NOCMD`, the operation it is then. -/
def Obligations.IdleDispatchDoesNothing : Prop :=
  ∀ (s : State), (cmdPending s.cmd = false → exec .dispatch s = .next s) ∧
    ∀ r, exec (.noCmd r) s = .next s

/-- O18. Routing (R142): a pending `DISPATCH` runs the command whose code `CMD[13:0]` holds, whatever bit 14 is, and
the fallback when it is none of the five codes. -/
def Obligations.DispatchRoutesByCode : Prop :=
  ∀ (s : State), s.cfg.wf = true → cmdPending s.cmd = true →
    (∀ x, cmdCode s.cmd = s.cfg.code x → exec .dispatch s = exec (cmdInstr x) s) ∧
    ((∀ x, cmdCode s.cmd ≠ s.cfg.code x) → exec .dispatch s = exec (.illCmd (cmdCode s.cmd)) s)

/-- O19. `DISPATCH` is the operation that `H[0]` decodes to, executed (R140, R141, R142). -/
def Obligations.DispatchRunsDecodedCommandWord : Prop :=
  ∀ (s : State), exec .dispatch s = exec (decodeCmd s.cfg s.cmd) s

/-- O20. The pending flag is cleared unconditionally (R145): every `DISPATCH`, from every state, completes with
`CMD.P` = 0, and so does every poll cycle that completes. -/
def Obligations.DispatchAlwaysClearsPending : Prop :=
  (∀ s : State, ∃ t, exec .dispatch s = .next t ∧ cmdPending t.cmd = false) ∧
  (∀ (op : Option BusOp) (s t : State), exec (.pollCycle op) s = .next t → cmdPending t.cmd = false)

/-- O21. A command is run at most once: the `DISPATCH` after a `DISPATCH` changes nothing (R149). -/
def Obligations.SecondDispatchDoesNothing : Prop :=
  ∀ (s t : State), exec .dispatch s = .next t → exec .dispatch t = .next t

/-- O22. Quiescent exactly when Idle (R141, R272; decision D36 of the spec). -/
def Obligations.QuiescentExactlyWhenIdle : Prop :=
  ∀ (s : State), exec .dispatch s = .next s ↔ cmdPending s.cmd = false

/-- O23. A written `E` bit is not an input: a pending word with bit 14 set and the same word with it clear are
dispatched to the same state (R93, R259; decision D11 of the spec). -/
def Obligations.WrittenErrorBitIsIgnored : Prop :=
  ∀ (s : State), s.Sized → cmdPending s.cmd = true →
    exec .dispatch (s.writeH 0 (s.cmd ||| 0x4000#16)) =
      exec .dispatch (s.writeH 0 (s.cmd &&& 0xBFFF#16))

/-- O24. What a `DISPATCH` cannot change: `H[3]` and beyond, the number of registers, the configuration, the responses,
what is to be presented, the boot stage (R26, R41, R140, R178). -/
def Obligations.DispatchFrame : Prop :=
  ∀ (s t : State), exec .dispatch s = .next t →
    (∀ i, 3 ≤ i → t.H i = s.H i) ∧ t.regs.length = s.regs.length ∧ t.cfg = s.cfg ∧
    t.responses = s.responses ∧ t.script = s.script ∧ t.boot = s.boot

/-- O25. After a pending `DISPATCH`, `E` = 1 exactly when it wrote an error code into `H[1]` (R143, R203; decisions D19
and D20 of the spec): with `E` = 1 `H[1]` is 0xFFFF or 0xFFFE and `H[2]` is as it was, with `E` = 0 `H[1]` is as it was. -/
def Obligations.ErrorFlagTellsErrorCode : Prop :=
  ∀ (s t : State), s.Sized → cmdPending s.cmd = true → exec .dispatch s = .next t →
    (cmdError t.cmd = true → (t.H 1 = 0xFFFF#16 ∨ t.H 1 = 0xFFFE#16) ∧ t.H 2 = s.H 2) ∧
    (cmdError t.cmd = false → t.H 1 = s.H 1)

/-- O26. A command that failed has performed none of its effects: no event, no answer used (R162, R210). That executing it
passes no time is the model's choice: R36 lets any time pass during an operation, and the model lets it pass after the
operation, in `step` (log entry 4). -/
def Obligations.FailedCommandHasNoSideEffect : Prop :=
  ∀ (s t : State), s.Sized → cmdPending s.cmd = true → exec .dispatch s = .next t →
    cmdError t.cmd = true → t = { s with regs := t.regs }

/-- O27. With `ERRCODE_IN_CMD` = false a `DISPATCH` never changes `CMD[13:0]` (R25; decision D3 of the spec). -/
def Obligations.CodeFieldKeptByDispatch : Prop :=
  ∀ (s t : State), s.cfg.errcodeInCmd = false → exec .dispatch s = .next t →
    cmdCode t.cmd = cmdCode s.cmd

/-- O28. What a command does depends on `H[0]`, `H[1]`, `H[2]`, the configuration and the environment's answers alone
(R160, R178): two blocks that agree on these emit the same events and leave the same three registers. -/
def Obligations.CommandDependsOnlyOnItsOperands : Prop :=
  ∀ (s u t v : State), s.Sized → u.Sized → u.cfg = s.cfg → (∀ i, i < 3 → u.H i = s.H i) →
    u.levels = s.levels → u.draws = s.draws →
    exec .dispatch s = .next t → exec .dispatch u = .next v →
    (∀ i, i < 3 → v.H i = t.H i) ∧
    ∃ ev, t.trace = s.trace ++ ev ∧ v.trace = u.trace ++ ev

/-- O29. `P` is set only by a `WR_HOLD` whose word for address 0 has bit 15 = 1, and cleared only by the dispatcher or by
a `WR_HOLD` whose word for address 0 has bit 15 = 0, `CLRERR` being such a write (R22, R123). The command rows, `POLL_CYCLE`
and `CALL` hold a dispatch. -/
def Obligations.WhoSetsAndClearsPending : Prop :=
  ∀ (i : Instr) (s t : State), exec i s = .next t →
    (cmdPending s.cmd = false → cmdPending t.cmd = true →
      ∃ len v rest, i = .wrHold 0 len (v :: rest) ∧ cmdPending v = true) ∧
    (cmdPending s.cmd = true → cmdPending t.cmd = false →
      match i with
      | .noCmd _ | .rdHold _ _ | .rdIn _ _ | .wrIn _ _ _ => False
      | .wrHold a _ vs => a = 0 ∧ ∃ v rest, vs = v :: rest ∧ cmdPending v = false
      | _ => True)

/-- O30. The overwrite race (R146): of two command writes with no `DISPATCH` between, the earlier command never runs and
leaves no event; the next `DISPATCH` runs what the later word selects. -/
def Obligations.OverwrittenCommandNeverRuns : Prop :=
  ∀ (s : State) (l m : Word) (v w : Word) (vs ws : List Word), s.Sized →
    (v :: vs).length = l.toNat → (w :: ws).length = m.toNat → l.toNat ≤ s.cfg.n → m.toNat ≤ s.cfg.n →
    ∃ t u : State, exec (.wrHold 0 l (v :: vs)) s = .next t ∧
      exec (.wrHold 0 m (w :: ws)) t = .next u ∧
      u.cmd = w ∧ u.trace = s.trace ∧ exec .dispatch u = exec (decodeCmd s.cfg w) u

/-! ### The commands -/

/-- O31. `SETPIN` (R161), which a `DISPATCH` runs when it is selected: on an allowed pin the level, then the direction, and of the registers only `CMD` changes; on
any other pin IllegalParam and no event. What a failure writes is R203's (`afterFailure`): `E`, `H[1]` and `P`, and the
code field too under `ERRCODE_IN_CMD` (decisions D3 and D19 of the spec, log entry 12). -/
def Obligations.SetPinEffect : Prop :=
  ∀ (s : State), s.Sized →
    (Selected s .setPin → exec .dispatch s = exec .setPin s) ∧
    (s.H 1 ∈ s.cfg.setPinAllowed → exec .setPin s = .next { s with
      regs := s.regs.set 0 (cmdAfterSuccess s.cmd)
      trace := s.trace ++ [.levelWrite (s.H 1) (s.H 2), .dirConfig (s.H 1) .output] }) ∧
    (s.H 1 ∉ s.cfg.setPinAllowed → exec .setPin s = .next (afterFailure s 0xFFFE#16))

/-- O32. `GETPIN` (R165), which a `DISPATCH` runs when it is selected: on a pin that is not refused, pulled-up input, then
the sample, whose level, any level, goes zero-extended into `H[2]`; on a refused pin IllegalParam and no event. What a
failure writes is R203's (`afterFailure`): `E`, `H[1]` and `P`, and the code field too under `ERRCODE_IN_CMD` (decisions D3
and D19 of the spec, log entry 12). What the environment has fixed of later answers (`levels`) and the counter of free draws are the model's own (log entry 5). -/
def Obligations.GetPinEffect : Prop :=
  ∀ (s : State), s.Sized →
    (Selected s .getPin → exec .dispatch s = exec .getPin s) ∧
    (s.H 1 ∉ s.cfg.getPinDisallowed → ∃ (t : State) (level : Level),
      exec .getPin s = .next t ∧
      t = { s with
        regs := (s.regs.set 2 (level.setWidth 16)).set 0 (cmdAfterSuccess s.cmd)
        trace := s.trace ++ [.dirConfig (s.H 1) .inputPullup, .levelRead (s.H 1) level]
        levels := t.levels
        draws := t.draws }) ∧
    (s.H 1 ∈ s.cfg.getPinDisallowed → exec .getPin s = .next (afterFailure s 0xFFFE#16))

/-- O33. `DELAY` (R168), which a `DISPATCH` runs when it is selected: under `BUFFER` the wait of `H[1]` milliseconds, of the registers only `CMD` changes, and at
least that time has passed; under `DROP` exactly what DelayExclusive does. -/
def Obligations.DelayEffect : Prop :=
  ∀ (s : State), s.Sized →
    (Selected s .delay → exec .dispatch s = exec .delay s) ∧
    (s.cfg.delayRxPolicy = .buffer → ∃ t : State, exec .delay s = .next t ∧
      s.nowMs + (s.H 1).toNat ≤ t.nowMs ∧
      t = { s with
        regs := s.regs.set 0 (cmdAfterSuccess s.cmd)
        trace := s.trace ++ [.wait (s.H 1)]
        nowMs := t.nowMs
        draws := t.draws }) ∧
    (s.cfg.delayRxPolicy = .drop → exec .delay s = exec .delayX s)

/-- O34. `DELAYX` (R172), which a `DISPATCH` runs when it is selected: suspend, wait, resume at the boot-time rate, in this order on every run; of the registers only
`CMD` changes, at least `H[1]` milliseconds have passed, and the transport is open again. -/
def Obligations.DelayExclusiveEffect : Prop :=
  ∀ (s : State), s.Sized → (Selected s .delayX → exec .dispatch s = exec .delayX s) ∧
    ∃ t : State, exec .delayX s = .next t ∧
    s.nowMs + (s.H 1).toNat ≤ t.nowMs ∧
    t = { s with
      regs := s.regs.set 0 (cmdAfterSuccess s.cmd)
      trace := s.trace ++ [.xportSuspend, .wait (s.H 1), .xportResume s.cfg.baud]
      nowMs := t.nowMs
      xport := .opened s.cfg.baud
      draws := t.draws }

/-- O35. `TEST` (R176), which a `DISPATCH` runs when it is selected: no event, and of the registers only the flags of `CMD` change. -/
def Obligations.TestEffect : Prop :=
  ∀ (s : State), s.Sized → (Selected s .test → exec .dispatch s = exec .test s) ∧
    exec .test s = .next { s with regs := s.regs.set 0 (cmdAfterSuccess s.cmd) }

/-- O36. `ILLCMD` (R144), which a `DISPATCH` of a pending word with an unmapped code runs: `E` set, IllegalCmd into `H[1]`, `P` cleared, no event, and no other register changes; under
`ERRCODE_IN_CMD` the command word reads 0x7FFF. -/
def Obligations.IllegalCommandEffect : Prop :=
  ∀ (s : State) (k : BitVec 14), s.Sized →
    (Unmapped s → exec .dispatch s = .next (afterFailure s 0xFFFF#16)) ∧
    exec (.illCmd k) s = .next (afterFailure s 0xFFFF#16) ∧
    (s.cfg.errcodeInCmd = true → cmdAfterFailure s.cfg 0xFFFF#16 s.cmd = 0x7FFF#16)

/-- O37. Pin configuration persists and follows the commands alone (R257): SetPin leaves its pin an output at the value
written, GetPin leaves its pin a pulled-up input, and no other pin is touched by either; no pin is touched by anything
else: a SetPin or GetPin that fails, another command, the fallback with any code, a bus request, `CLRERR`, an idle word,
or a `DISPATCH` that runs neither a SetPin on an allowed pin nor a GetPin on a pin that is not refused. (`POLL_CYCLE` and
`CALL` are sequences of these, O39 and O41.) What the trace says of a pin is the model's reading of R39 (log entry 17). -/
def Obligations.PinConfigurationFollowsCommands : Prop :=
  ∀ (s t : State), s.Sized →
    (s.H 1 ∈ s.cfg.setPinAllowed → exec .setPin s = .next t →
      pinMode (s.H 1) t.trace = some .output ∧ pinValue (s.H 1) t.trace = some (s.H 2) ∧
      ∀ p, p ≠ s.H 1 → pinMode p t.trace = pinMode p s.trace ∧ pinValue p t.trace = pinValue p s.trace) ∧
    (s.H 1 ∉ s.cfg.getPinDisallowed → exec .getPin s = .next t →
      pinMode (s.H 1) t.trace = some .inputPullup ∧
      (∀ p, pinValue p t.trace = pinValue p s.trace) ∧
      ∀ p, p ≠ s.H 1 → pinMode p t.trace = pinMode p s.trace) ∧
    (∀ i : Instr, LeavesPins s i → exec i s = .next t →
      ∀ p, pinMode p t.trace = pinMode p s.trace ∧ pinValue p t.trace = pinValue p s.trace)

/-- O38. The suspend and the resume are paired and no operation ends with the transport suspended (R37, R173): a block
whose transport is not suspended has it open or as it was after any operation, and what an operation emits is made of the
commands' own sequences (laws 8 to 10 of 95_test_vectors.md). The field `xport` is the model's own (log entry 3). -/
def Obligations.EveryOperationEmitsWholeSequences : Prop :=
  ∀ (i : Instr) (s t : State), s.xport ≠ .suspended → exec i s = .next t →
    t.xport ≠ .suspended ∧ ∃ ev, t.trace = s.trace ++ ev ∧ traceOk s.cfg ev = true

/-! ### The pseudo-operations -/

/-- O39. `POLL_CYCLE` (R150) is its request, whole, then a `DISPATCH`; alone it is the `DISPATCH`. A request that has a step
is followed by the dispatch, and one that has none gives the cycle none. -/
def Obligations.PollCycleIsRequestThenDispatch : Prop :=
  (∀ s : State, exec (.pollCycle none) s = exec .dispatch s) ∧
  (∀ (op : BusOp) (s t : State), exec (busInstr op) s = .next t →
    exec (.pollCycle (some op)) s = exec .dispatch t) ∧
  (∀ (op : BusOp) (s : State) (r : Refusal), exec (busInstr op) s = .refused r →
    exec (.pollCycle (some op)) s = .refused r)

/-- O40. One poll cycle runs the command it submits (R71, R92, R150): a `WR_HOLD` at address 0 of `LIT_x` and its arguments, in
one cycle, is the command `x` executed on the registers as written. -/
def Obligations.PollCycleRunsSubmittedCommand : Prop :=
  ∀ (s : State) (x : Cmd) (len : Word) (args : List Word), s.Sized →
    args.length + 1 = len.toNat → len.toNat ≤ s.cfg.n → ∃ t u : State,
      exec (.wrHold 0 len (literal s.cfg x :: args)) s = .next t ∧
      exec (.pollCycle (some (.wrHold 0 len (literal s.cfg x :: args)))) s = .next u ∧
      exec (cmdInstr x) t = .next u ∧ cmdPending u.cmd = false

/-- O41. `CALL` is its two poll cycles (R108; the pseudo-operation is decision D29 of the spec), it always completes, with the
two responses and `P` = 0. -/
def Obligations.CallIsTwoPollCycles : Prop :=
  ∀ (s : State) (x : Cmd) (args : List Word) (k : Word), args.length + 1 ≤ 65535 → ∃ t u : State,
    exec (.pollCycle (some (.wrHold 0 (BitVec.ofNat 16 (args.length + 1)) (literal s.cfg x :: args)))) s
      = .next t ∧
    exec (.pollCycle (some (.rdHold 0 k))) t = .next u ∧
    exec (.call x args k) s = .next u ∧ cmdPending u.cmd = false ∧
    ∃ r q, u.responses = s.responses ++ [r, q]

/-- O42. `CLRERR` (R108; decision D29 of the spec) writes 0 to `CMD` and changes no other register. -/
def Obligations.ClearErrorEffect : Prop :=
  ∀ (s : State), s.Sized → exec .clrErr s = .next { s with
    regs := s.regs.set 0 0
    responses := s.responses ++ [⟨.ok, none⟩] }

/-- O43. End to end with the test command (R176, MC §8): write `[TestCmd|pendingBit, a, b]`, poll, read back: the parameters
are unchanged, bit 15 and bit 14 are 0, no event, in every configuration. -/
def Obligations.EndToEndTestCommand : Prop :=
  ∀ (s : State) (a b : Word), s.Sized → exec (.call .test [a, b] 3) s = .next { s with
    regs := ((s.regs.set 0 (s.cfg.codeTest.setWidth 16)).set 1 a).set 2 b
    responses := s.responses ++
      [⟨.ok, none⟩, ⟨.ok, some [s.cfg.codeTest.setWidth 16, a, b]⟩] }

/-- O44. Every operation of the block terminates, and none leaves it stuck (R207, R271): a well-formed operation, in any
state whatever, completes. That the collaborators complete is decision D31 of the spec (log entry 11). -/
def Obligations.EveryWellFormedOperationCompletes : Prop :=
  ∀ (i : Instr) (s : State), i.wf s.cfg = true → ∃ t, exec i s = .next t

/-! ### Reset, boot, the step -/

/-- O45. At reset every holding register is 0, so `CMD` = 0x0000, `P` = 0, `E` = 0, `CODE` = 0 and the dispatcher is Idle (R43),
in every configuration. -/
def Obligations.ResetZeroesRegisters : Prop :=
  ∀ (c : Config), (State.resetWith c).regs.length = c.n ∧
    (∀ i, i < c.n → (State.resetWith c).regs[i]? = some 0) ∧
    (State.resetWith c).cmd = 0 ∧ cmdPending (State.resetWith c).cmd = false ∧
    cmdError (State.resetWith c).cmd = false ∧ cmdCode (State.resetWith c).cmd = 0 ∧
    (State.resetWith c).dispatcher = .idle

/-- O46. The boot sequence (R244, decision D28 of the spec; its stages are steps of the model, log entry 3), from every
state: the first step registers the callbacks, the second opens the transport at `BAUD` and enters the loop, each changes
nothing else, no event is emitted (R242, D27), and time may pass (log entry 4). So from reset the loop runs after two
steps, with the registers still 0. -/
def Obligations.BootOpensTransport : Prop :=
  (∀ s : State, s.boot = .created → ∃ t, step s = .next t ∧ s.nowMs ≤ t.nowMs ∧
    t = { s with boot := .registered, nowMs := t.nowMs, draws := t.draws }) ∧
  (∀ s : State, s.boot = .registered → ∃ t, step s = .next t ∧ s.nowMs ≤ t.nowMs ∧
    t = { s with
      boot := .running
      xport := .opened s.cfg.baud
      nowMs := t.nowMs
      draws := t.draws }) ∧
  (∀ c : Config, ∃ t u : State, step (State.resetWith c) = .next t ∧ step t = .next u ∧
    t.boot = .registered ∧ t.xport = .closed ∧ t.trace = [] ∧
    u.boot = .running ∧ u.xport = .opened c.baud ∧ u.regs = List.replicate c.n 0 ∧ u.trace = [])

/-- O47. The invariant holds at reset, in every admitted configuration. -/
def Obligations.InvariantAtReset : Prop :=
  ∀ (c : Config), c.wf = true → (State.resetWith c).Inv

/-- O48. Every step keeps the invariant: the register file keeps its size and the parameters their ranges, the transport is
open at `BAUD` exactly while the loop runs, the fixed levels keep their form, and the trace is made of whole sequences of
the commands: every output direction on an allowed pin right after its level, every level read on a pin not refused right
after its direction, every suspend followed by one wait and the resume (R20, R37, R161, R165, R172; log entries 3 and 5). -/
def Obligations.StepKeepsInvariant : Prop :=
  ∀ (s t : State), s.Inv → step s = .next t → t.Inv

/-- O49. Under `SCHEDULE` = `CANONICAL` no step ever finds a command pending (R14, R28, R146): the overwrite race cannot arise.
That the strobe alone and `CALL` are poll cycles is read from R108 (log entry 7). -/
def Obligations.CanonicalScheduleNeverFindsPending : Prop :=
  ∀ (s t : State), s.cfg.schedule = .canonical → s.scriptAdmitted = true →
    cmdPending s.cmd = false → step s = .next t →
    t.scriptAdmitted = true ∧ cmdPending t.cmd = false

/-- O50. The configuration is fixed at construction: no step changes it (R41). -/
def Obligations.ConfigurationIsFixed : Prop :=
  ∀ (s t : State), step s = .next t → t.cfg = s.cfg

/-- O51. The trace is append-only (R42; decision D1 of the spec), and so is the list of responses, which is the model's own
record and no state of the spec's (log entries 6 and 13). -/
def Obligations.TraceOnlyGrows : Prop :=
  ∀ (s t : State), step s = .next t → s.trace <+: t.trace ∧ s.responses <+: t.responses

/-- O52. `now_ms` never decreases, and `TICK d` advances it by exactly `d` and changes nothing else (R36, R107; decisions D21 and
D29 of the spec). That `TICK d` adds to the free passage of time and does not fix it is the model's choice (log entry 19). -/
def Obligations.TimeNeverDecreases : Prop :=
  (∀ (s t : State), step s = .next t → s.nowMs ≤ t.nowMs) ∧
  (∀ (s : State) (d : Nat) (rest : List Input), s.boot = .running → s.script = .tick d :: rest →
    step s = .next { s with nowMs := s.nowMs + d, script := rest })

/-- O53. A step runs the decoded operation: what is presented next, decoded, is executed, and then some time passes, any
amount; what the decoder rejects stops the step, by its name (R67, R94, U12); with nothing presented the operation is
`DISPATCH` (R18, R36, R150; log entries 4, 7 and 10). -/
def Obligations.StepRunsPresentedOperation : Prop :=
  ∀ (s : State), s.boot = .running →
    (∀ p rest i u, s.script = .op p :: rest → decodePort p = .ok i →
      exec i { s with script := rest } = .next u →
      ∃ d, step s = .next { u with nowMs := u.nowMs + d, draws := u.draws + 1 }) ∧
    (∀ p rest e, s.script = .op p :: rest → decodePort p = .error e →
      step s = .refused (.badRequest e)) ∧
    (s.script = [] → ∀ u, exec .dispatch s = .next u →
      ∃ d, step s = .next { u with nowMs := u.nowMs + d, draws := u.draws + 1 })

/-- O54. A command word placed in `H[0]` and strobed runs as the operation it decodes to: what `withFetchWord` prepares for a
16-bit row of the table (R27, R96, R140; log entries 7 and 8). -/
def Obligations.PlacedCommandWordRuns : Prop :=
  ∀ (s : State) (w : Word), s.Sized →
    step (s.withFetchWord 16 w.toNat) = elapse (exec (decodeCmd s.cfg w)
      { s with regs := s.regs.set 0 w, boot := .running, xport := .opened s.cfg.baud })

/-- O55. `LEVEL pin := v` (R107; decision D29 of the spec) fixes the answer of the next `LevelRead` of that pin, leaves the
answers fixed for other pins, and changes nothing of the block; a GetPin on a pin with a fixed answer takes that answer
and uses it up, and uses up no other pin's (log entry 5). -/
def Obligations.LevelDirectiveFixesNextAnswer : Prop :=
  (∀ (s : State) (pin : Word) (v : Level) (rest : List Input), s.boot = .running →
    s.script = .level pin v :: rest → ∃ t, step s = .next t ∧
      t = { s with script := rest, levels := t.levels } ∧
      ∀ p, t.levels.lookup p = if p = pin then some v else s.levels.lookup p) ∧
  (∀ (s : State) (v : Level), s.Sized → s.H 1 ∉ s.cfg.getPinDisallowed →
    s.levels.lookup (s.H 1) = some v → ∃ t, exec .getPin s = .next t ∧
      t.H 2 = v.setWidth 16 ∧ t.trace.getLast? = some (.levelRead (s.H 1) v) ∧
      ∀ p, t.levels.lookup p = if p = s.H 1 then none else s.levels.lookup p)
end

