-- ==== Sys2Proof/Laws/Decode.lean ====
section
/-! SUPPORT. The code to handler mapping and the fields of the words the encoder writes. -/

namespace Sys2Proof

theorem Config.wf_codes {c : Config} (h : c.wf = true) :
    [c.codeSetPin, c.codeGetPin, c.codeDelay, c.codeDelayX, c.codeTest].Nodup := by
  simp only [Config.wf, Bool.and_eq_true, decide_eq_true_eq] at h
  exact h.1.1.2

theorem Config.wf_n {c : Config} (h : c.wf = true) : 3 ≤ c.n ∧ c.n ≤ 65535 := by
  simp only [Config.wf, Bool.and_eq_true, decide_eq_true_eq] at h
  exact ⟨h.1.1.1.1, h.1.1.1.2⟩

/-- Each code is mapped to its own command (R101). -/
theorem route_code {c : Config} (h : c.wf = true) (x : Cmd) : route c (c.code x) = some x := by
  have hc := c.wf_codes h
  simp only [List.nodup_cons, List.mem_cons, List.not_mem_nil, or_false, not_or] at hc
  obtain ⟨⟨h1, h2, h3, h4⟩, ⟨h5, h6, h7⟩, ⟨h8, h9⟩, h10, -⟩ := hc
  cases x <;> simp [route, Config.code, *, Ne.symm, eq_comm]

/-- A command that the mapping answers has the code that was looked up. -/
theorem route_eq_some {c : Config} {k : BitVec 14} {x : Cmd} (h : route c k = some x) :
    k = c.code x := by
  unfold route at h
  repeat' split at h
  all_goals first | (cases h; assumption) | cases h

theorem route_eq_none {c : Config} {k : BitVec 14} :
    route c k = none ↔
      [c.codeSetPin, c.codeGetPin, c.codeDelay, c.codeDelayX, c.codeTest].contains k = false := by
  unfold route
  simp only [List.contains_eq_mem, List.mem_cons, List.not_mem_nil, or_false, decide_eq_false_iff_not]
  repeat' split
  all_goals simp_all

/-! ### The fields of an encoded command word -/

theorem submitted_pending (k : BitVec 14) : cmdPending (0x8000#16 ||| k.setWidth 16) = true := by
  simp [cmdPending]

theorem submitted_code (k : BitVec 14) : cmdCode (0x8000#16 ||| k.setWidth 16) = k := by
  apply BitVec.eq_of_getLsbD_eq
  intro i hi
  have : (0x8000#16).getLsbD i = false := by
    interval_cases i <;> rfl
  simp [cmdCode, hi, this]
  omega

theorem idle_not_pending (r : BitVec 15) : cmdPending (r.setWidth 16) = false := by
  simp [cmdPending]

theorem idle_rest (r : BitVec 15) : cmdRest (r.setWidth 16) = r := by
  apply BitVec.eq_of_getLsbD_eq
  intro i hi
  simp [cmdRest, hi]
  omega

/-! ### A command word is its fields -/

theorem cmdInstr_injective {x y : Cmd} (h : cmdInstr x = cmdInstr y) : x = y := by
  cases x <;> cases y <;> simp_all [cmdInstr]

theorem submitted_word (w : Word) (h : cmdPending w = true) :
    0x8000#16 ||| (cmdCode w).setWidth 16 = w &&& 0xBFFF#16 := by
  apply BitVec.eq_of_getLsbD_eq
  intro i hi
  simp only [cmdPending, cmdCode] at *
  interval_cases i <;> simp_all

theorem idle_word (w : Word) (h : cmdPending w = false) : (cmdRest w).setWidth 16 = w := by
  apply BitVec.eq_of_getLsbD_eq
  intro i hi
  simp only [cmdPending, cmdRest] at *
  interval_cases i <;> simp_all

end Sys2Proof
end

