-- ==== Sys2Proof/Laws/State.lean ====
section
/-! SUPPORT. One lemma per field per update of the state, so that no proof unfolds a record update. -/

namespace Sys2Proof.Machine

open Sys2Proof

/-! ### `writeH` -/

@[simp] theorem writeH_cfg (s : State) (i : Nat) (v : Word) : (s.writeH i v).cfg = s.cfg := rfl
@[simp] theorem writeH_regs (s : State) (i : Nat) (v : Word) : (s.writeH i v).regs = s.regs.set i v := rfl
@[simp] theorem writeH_trace (s : State) (i : Nat) (v : Word) : (s.writeH i v).trace = s.trace := rfl
@[simp] theorem writeH_responses (s : State) (i : Nat) (v : Word) :
    (s.writeH i v).responses = s.responses := rfl
@[simp] theorem writeH_nowMs (s : State) (i : Nat) (v : Word) : (s.writeH i v).nowMs = s.nowMs := rfl
@[simp] theorem writeH_boot (s : State) (i : Nat) (v : Word) : (s.writeH i v).boot = s.boot := rfl
@[simp] theorem writeH_xport (s : State) (i : Nat) (v : Word) : (s.writeH i v).xport = s.xport := rfl
@[simp] theorem writeH_script (s : State) (i : Nat) (v : Word) : (s.writeH i v).script = s.script := rfl
@[simp] theorem writeH_levels (s : State) (i : Nat) (v : Word) : (s.writeH i v).levels = s.levels := rfl
@[simp] theorem writeH_draws (s : State) (i : Nat) (v : Word) : (s.writeH i v).draws = s.draws := rfl

/-! ### `memWrite` -/

@[simp] theorem memWrite_cfg (s : State) (a : Nat) (vs : List Word) : (memWrite s a vs).cfg = s.cfg := rfl
@[simp] theorem memWrite_regs (s : State) (a : Nat) (vs : List Word) :
    (memWrite s a vs).regs = writeWords s.regs a vs := rfl
@[simp] theorem memWrite_trace (s : State) (a : Nat) (vs : List Word) :
    (memWrite s a vs).trace = s.trace := rfl
@[simp] theorem memWrite_responses (s : State) (a : Nat) (vs : List Word) :
    (memWrite s a vs).responses = s.responses := rfl
@[simp] theorem memWrite_nowMs (s : State) (a : Nat) (vs : List Word) :
    (memWrite s a vs).nowMs = s.nowMs := rfl
@[simp] theorem memWrite_boot (s : State) (a : Nat) (vs : List Word) : (memWrite s a vs).boot = s.boot := rfl
@[simp] theorem memWrite_xport (s : State) (a : Nat) (vs : List Word) :
    (memWrite s a vs).xport = s.xport := rfl
@[simp] theorem memWrite_script (s : State) (a : Nat) (vs : List Word) :
    (memWrite s a vs).script = s.script := rfl
@[simp] theorem memWrite_levels (s : State) (a : Nat) (vs : List Word) :
    (memWrite s a vs).levels = s.levels := rfl
@[simp] theorem memWrite_draws (s : State) (a : Nat) (vs : List Word) :
    (memWrite s a vs).draws = s.draws := rfl

/-! ### `respond` -/

@[simp] theorem respond_cfg (s : State) (r : BusRsp) : (s.respond r).cfg = s.cfg := rfl
@[simp] theorem respond_regs (s : State) (r : BusRsp) : (s.respond r).regs = s.regs := rfl
@[simp] theorem respond_trace (s : State) (r : BusRsp) : (s.respond r).trace = s.trace := rfl
@[simp] theorem respond_responses (s : State) (r : BusRsp) :
    (s.respond r).responses = s.responses ++ [r] := rfl
@[simp] theorem respond_nowMs (s : State) (r : BusRsp) : (s.respond r).nowMs = s.nowMs := rfl
@[simp] theorem respond_boot (s : State) (r : BusRsp) : (s.respond r).boot = s.boot := rfl
@[simp] theorem respond_xport (s : State) (r : BusRsp) : (s.respond r).xport = s.xport := rfl
@[simp] theorem respond_script (s : State) (r : BusRsp) : (s.respond r).script = s.script := rfl
@[simp] theorem respond_levels (s : State) (r : BusRsp) : (s.respond r).levels = s.levels := rfl
@[simp] theorem respond_draws (s : State) (r : BusRsp) : (s.respond r).draws = s.draws := rfl

/-! ### `raiseAddressError` -/

@[simp] theorem raiseAddressError_cfg (s : State) : (raiseAddressError s).cfg = s.cfg := rfl
@[simp] theorem raiseAddressError_regs (s : State) : (raiseAddressError s).regs = s.regs := rfl
@[simp] theorem raiseAddressError_trace (s : State) : (raiseAddressError s).trace = s.trace := rfl
@[simp] theorem raiseAddressError_responses (s : State) :
    (raiseAddressError s).responses = s.responses ++ [⟨.addressError, none⟩] := rfl
@[simp] theorem raiseAddressError_nowMs (s : State) : (raiseAddressError s).nowMs = s.nowMs := rfl
@[simp] theorem raiseAddressError_boot (s : State) : (raiseAddressError s).boot = s.boot := rfl
@[simp] theorem raiseAddressError_xport (s : State) : (raiseAddressError s).xport = s.xport := rfl
@[simp] theorem raiseAddressError_script (s : State) : (raiseAddressError s).script = s.script := rfl
@[simp] theorem raiseAddressError_levels (s : State) : (raiseAddressError s).levels = s.levels := rfl
@[simp] theorem raiseAddressError_draws (s : State) : (raiseAddressError s).draws = s.draws := rfl

/-! ### `emit` -/

@[simp] theorem emit_cfg (s : State) (e : Event) : (s.emit e).cfg = s.cfg := rfl
@[simp] theorem emit_regs (s : State) (e : Event) : (s.emit e).regs = s.regs := rfl
@[simp] theorem emit_trace (s : State) (e : Event) : (s.emit e).trace = s.trace ++ [e] := rfl
@[simp] theorem emit_responses (s : State) (e : Event) : (s.emit e).responses = s.responses := rfl
@[simp] theorem emit_nowMs (s : State) (e : Event) : (s.emit e).nowMs = s.nowMs := rfl
@[simp] theorem emit_boot (s : State) (e : Event) : (s.emit e).boot = s.boot := rfl
@[simp] theorem emit_xport (s : State) (e : Event) : (s.emit e).xport = s.xport := rfl
@[simp] theorem emit_script (s : State) (e : Event) : (s.emit e).script = s.script := rfl
@[simp] theorem emit_levels (s : State) (e : Event) : (s.emit e).levels = s.levels := rfl
@[simp] theorem emit_draws (s : State) (e : Event) : (s.emit e).draws = s.draws := rfl

/-! ### `emitSuspend` -/

@[simp] theorem emitSuspend_cfg (s : State) : (emitSuspend s).cfg = s.cfg := rfl
@[simp] theorem emitSuspend_regs (s : State) : (emitSuspend s).regs = s.regs := rfl
@[simp] theorem emitSuspend_trace (s : State) : (emitSuspend s).trace = s.trace ++ [.xportSuspend] := rfl
@[simp] theorem emitSuspend_responses (s : State) : (emitSuspend s).responses = s.responses := rfl
@[simp] theorem emitSuspend_nowMs (s : State) : (emitSuspend s).nowMs = s.nowMs := rfl
@[simp] theorem emitSuspend_boot (s : State) : (emitSuspend s).boot = s.boot := rfl
@[simp] theorem emitSuspend_xport (s : State) : (emitSuspend s).xport = .suspended := rfl
@[simp] theorem emitSuspend_script (s : State) : (emitSuspend s).script = s.script := rfl
@[simp] theorem emitSuspend_levels (s : State) : (emitSuspend s).levels = s.levels := rfl
@[simp] theorem emitSuspend_draws (s : State) : (emitSuspend s).draws = s.draws := rfl

/-! ### `emitResume` -/

@[simp] theorem emitResume_cfg (s : State) : (emitResume s).cfg = s.cfg := rfl
@[simp] theorem emitResume_regs (s : State) : (emitResume s).regs = s.regs := rfl
@[simp] theorem emitResume_trace (s : State) :
    (emitResume s).trace = s.trace ++ [.xportResume s.cfg.baud] := rfl
@[simp] theorem emitResume_responses (s : State) : (emitResume s).responses = s.responses := rfl
@[simp] theorem emitResume_nowMs (s : State) : (emitResume s).nowMs = s.nowMs := rfl
@[simp] theorem emitResume_boot (s : State) : (emitResume s).boot = s.boot := rfl
@[simp] theorem emitResume_xport (s : State) : (emitResume s).xport = .opened s.cfg.baud := rfl
@[simp] theorem emitResume_script (s : State) : (emitResume s).script = s.script := rfl
@[simp] theorem emitResume_levels (s : State) : (emitResume s).levels = s.levels := rfl
@[simp] theorem emitResume_draws (s : State) : (emitResume s).draws = s.draws := rfl

/-! ### `passTime` -/

@[simp] theorem passTime_cfg (d : Nat) (s : State) : (passTime d s).cfg = s.cfg := rfl
@[simp] theorem passTime_regs (d : Nat) (s : State) : (passTime d s).regs = s.regs := rfl
@[simp] theorem passTime_trace (d : Nat) (s : State) : (passTime d s).trace = s.trace := rfl
@[simp] theorem passTime_responses (d : Nat) (s : State) : (passTime d s).responses = s.responses := rfl
@[simp] theorem passTime_nowMs (d : Nat) (s : State) :
    (passTime d s).nowMs = s.nowMs + d + Config.freeMs s.draws := rfl
@[simp] theorem passTime_boot (d : Nat) (s : State) : (passTime d s).boot = s.boot := rfl
@[simp] theorem passTime_xport (d : Nat) (s : State) : (passTime d s).xport = s.xport := rfl
@[simp] theorem passTime_script (d : Nat) (s : State) : (passTime d s).script = s.script := rfl
@[simp] theorem passTime_levels (d : Nat) (s : State) : (passTime d s).levels = s.levels := rfl
@[simp] theorem passTime_draws (d : Nat) (s : State) : (passTime d s).draws = s.draws + 1 := rfl

/-! ### `emitWait` -/

@[simp] theorem emitWait_cfg (ms : Word) (s : State) : (emitWait ms s).cfg = s.cfg := rfl
@[simp] theorem emitWait_regs (ms : Word) (s : State) : (emitWait ms s).regs = s.regs := rfl
@[simp] theorem emitWait_trace (ms : Word) (s : State) : (emitWait ms s).trace = s.trace ++ [.wait ms] := rfl
@[simp] theorem emitWait_responses (ms : Word) (s : State) : (emitWait ms s).responses = s.responses := rfl
@[simp] theorem emitWait_nowMs (ms : Word) (s : State) :
    (emitWait ms s).nowMs = s.nowMs + ms.toNat + Config.freeMs s.draws := rfl
@[simp] theorem emitWait_boot (ms : Word) (s : State) : (emitWait ms s).boot = s.boot := rfl
@[simp] theorem emitWait_xport (ms : Word) (s : State) : (emitWait ms s).xport = s.xport := rfl
@[simp] theorem emitWait_script (ms : Word) (s : State) : (emitWait ms s).script = s.script := rfl
@[simp] theorem emitWait_levels (ms : Word) (s : State) : (emitWait ms s).levels = s.levels := rfl
@[simp] theorem emitWait_draws (ms : Word) (s : State) : (emitWait ms s).draws = s.draws + 1 := rfl

/-! ### `doTick` -/

@[simp] theorem doTick_cfg (d : Nat) (s : State) : (doTick d s).cfg = s.cfg := rfl
@[simp] theorem doTick_regs (d : Nat) (s : State) : (doTick d s).regs = s.regs := rfl
@[simp] theorem doTick_trace (d : Nat) (s : State) : (doTick d s).trace = s.trace := rfl
@[simp] theorem doTick_responses (d : Nat) (s : State) : (doTick d s).responses = s.responses := rfl
@[simp] theorem doTick_nowMs (d : Nat) (s : State) : (doTick d s).nowMs = s.nowMs + d := rfl
@[simp] theorem doTick_boot (d : Nat) (s : State) : (doTick d s).boot = s.boot := rfl
@[simp] theorem doTick_xport (d : Nat) (s : State) : (doTick d s).xport = s.xport := rfl
@[simp] theorem doTick_script (d : Nat) (s : State) : (doTick d s).script = s.script := rfl
@[simp] theorem doTick_levels (d : Nat) (s : State) : (doTick d s).levels = s.levels := rfl
@[simp] theorem doTick_draws (d : Nat) (s : State) : (doTick d s).draws = s.draws := rfl

/-! ### `doLevel` -/

@[simp] theorem doLevel_cfg (p : Word) (v : Level) (s : State) : (doLevel p v s).cfg = s.cfg := rfl
@[simp] theorem doLevel_regs (p : Word) (v : Level) (s : State) : (doLevel p v s).regs = s.regs := rfl
@[simp] theorem doLevel_trace (p : Word) (v : Level) (s : State) : (doLevel p v s).trace = s.trace := rfl
@[simp] theorem doLevel_responses (p : Word) (v : Level) (s : State) :
    (doLevel p v s).responses = s.responses := rfl
@[simp] theorem doLevel_nowMs (p : Word) (v : Level) (s : State) : (doLevel p v s).nowMs = s.nowMs := rfl
@[simp] theorem doLevel_boot (p : Word) (v : Level) (s : State) : (doLevel p v s).boot = s.boot := rfl
@[simp] theorem doLevel_xport (p : Word) (v : Level) (s : State) : (doLevel p v s).xport = s.xport := rfl
@[simp] theorem doLevel_script (p : Word) (v : Level) (s : State) : (doLevel p v s).script = s.script := rfl
@[simp] theorem doLevel_levels (p : Word) (v : Level) (s : State) :
    (doLevel p v s).levels = setLevel p v s.levels := rfl
@[simp] theorem doLevel_draws (p : Word) (v : Level) (s : State) : (doLevel p v s).draws = s.draws := rfl

/-! ### `bootRegister` -/

@[simp] theorem bootRegister_cfg (s : State) : (bootRegister s).cfg = s.cfg := rfl
@[simp] theorem bootRegister_regs (s : State) : (bootRegister s).regs = s.regs := rfl
@[simp] theorem bootRegister_trace (s : State) : (bootRegister s).trace = s.trace := rfl
@[simp] theorem bootRegister_responses (s : State) : (bootRegister s).responses = s.responses := rfl
@[simp] theorem bootRegister_nowMs (s : State) :
    (bootRegister s).nowMs = s.nowMs + 0 + Config.freeMs s.draws := rfl
@[simp] theorem bootRegister_boot (s : State) : (bootRegister s).boot = .registered := rfl
@[simp] theorem bootRegister_xport (s : State) : (bootRegister s).xport = s.xport := rfl
@[simp] theorem bootRegister_script (s : State) : (bootRegister s).script = s.script := rfl
@[simp] theorem bootRegister_levels (s : State) : (bootRegister s).levels = s.levels := rfl
@[simp] theorem bootRegister_draws (s : State) : (bootRegister s).draws = s.draws + 1 := rfl

/-! ### `bootOpen` -/

@[simp] theorem bootOpen_cfg (s : State) : (bootOpen s).cfg = s.cfg := rfl
@[simp] theorem bootOpen_regs (s : State) : (bootOpen s).regs = s.regs := rfl
@[simp] theorem bootOpen_trace (s : State) : (bootOpen s).trace = s.trace := rfl
@[simp] theorem bootOpen_responses (s : State) : (bootOpen s).responses = s.responses := rfl
@[simp] theorem bootOpen_nowMs (s : State) : (bootOpen s).nowMs = s.nowMs + 0 + Config.freeMs s.draws := rfl
@[simp] theorem bootOpen_boot (s : State) : (bootOpen s).boot = .running := rfl
@[simp] theorem bootOpen_xport (s : State) : (bootOpen s).xport = .opened s.cfg.baud := rfl
@[simp] theorem bootOpen_script (s : State) : (bootOpen s).script = s.script := rfl
@[simp] theorem bootOpen_levels (s : State) : (bootOpen s).levels = s.levels := rfl
@[simp] theorem bootOpen_draws (s : State) : (bootOpen s).draws = s.draws + 1 := rfl

end Sys2Proof.Machine
end

