-- ==== Sys2Proof/Laws/Ops.lean ====
section
/-! SUPPORT. What each shared operation does, said once: reading after writing, what a sequence of operations
answers, completion and failure, the environment's answers, and the discipline of the trace. -/

namespace Sys2Proof.Machine

open Sys2Proof

/-! ### Registers -/

theorem writeH_H (s : State) (i j : Nat) (v : Word) :
    (s.writeH i v).H j = if i = j ∧ i < s.regs.length then v else s.H j := by
  unfold State.H
  rw [writeH_regs, List.getD_eq_getElem?_getD, List.getElem?_set, List.getD_eq_getElem?_getD]
  by_cases h : i = j
  · subst h
    by_cases hl : i < s.regs.length <;> simp [hl]
  · simp [h]

theorem writeH_H_same (s : State) (i : Nat) (v : Word) (h : i < s.regs.length) :
    (s.writeH i v).H i = v := by simp [writeH_H, h]

theorem writeH_H_other (s : State) (i j : Nat) (v : Word) (h : i ≠ j) :
    (s.writeH i v).H j = s.H j := by simp [writeH_H, h]

theorem H_congr {s t : State} (h : s.regs = t.regs) (i : Nat) : s.H i = t.H i := by
  simp [State.H, h]

theorem cmd_eq_H (s : State) : s.cmd = s.H 0 := rfl

theorem writeWords_length (vs : List Word) (regs : List Word) (a : Nat) :
    (writeWords regs a vs).length = regs.length := by
  induction vs generalizing regs a with
  | nil => rfl
  | cons v vs ih => simp [writeWords, ih]

/-- A word read after a block write is the written word inside the block, and the old word outside (R67). -/
theorem writeWords_getElem? (vs : List Word) (regs : List Word) (a j : Nat) :
    (writeWords regs a vs)[j]? =
      if a ≤ j ∧ j < a + vs.length ∧ j < regs.length then vs[j - a]? else regs[j]? := by
  induction vs generalizing regs a with
  | nil => simp [writeWords]; omega
  | cons v vs ih =>
    rw [writeWords, ih, List.getElem?_set, List.length_set]
    by_cases h1 : a = j
    · subst h1
      by_cases h2 : a < regs.length
      · simp [h2]
      · simp [h2]
    · by_cases h2 : a + 1 ≤ j
      · obtain ⟨k, rfl⟩ : ∃ k, j = a + 1 + k := ⟨j - (a + 1), by omega⟩
        have e1 : a + 1 + k - a = k + 1 := by omega
        have e2 : a + 1 + k - (a + 1) = k := by omega
        have e3 : (a + 1 + k < a + 1 + vs.length) = (a + 1 + k < a + (v :: vs).length) := by
          simp only [List.length_cons]; congr 1; omega
        have e4 : (a + 1 ≤ a + 1 + k) = (a ≤ a + 1 + k) := by simp; omega
        simp only [e1, e2, e3, e4, h1, if_false, List.getElem?_cons_succ]
      · have e1 : ¬ (a + 1 ≤ j ∧ j < a + 1 + vs.length ∧ j < regs.length) := by omega
        have e2 : ¬ (a ≤ j ∧ j < a + (v :: vs).length ∧ j < regs.length) := by omega
        rw [if_neg e1, if_neg e2, if_neg h1]

theorem memWrite_H (s : State) (a j : Nat) (vs : List Word) (h : a + vs.length ≤ s.regs.length) :
    (memWrite s a vs).H j = if a ≤ j ∧ j < a + vs.length then vs.getD (j - a) 0 else s.H j := by
  unfold State.H
  simp only [memWrite_regs, List.getD_eq_getElem?_getD, writeWords_getElem?]
  by_cases h1 : a ≤ j ∧ j < a + vs.length
  · have h2 : a ≤ j ∧ j < a + vs.length ∧ j < s.regs.length := by omega
    rw [if_pos h1, if_pos h2]
  · have h2 : ¬ (a ≤ j ∧ j < a + vs.length ∧ j < s.regs.length) := by omega
    rw [if_neg h1, if_neg h2]

theorem memRead_hold_getElem? (s : State) (a n i : Nat) (hi : i < n) :
    (memRead s .hold a n)[i]? = s.regs[a + i]? := by
  simp [memRead, hi]

theorem memRead_hold_length (s : State) (a n : Nat) (h : a + n ≤ s.regs.length) :
    (memRead s .hold a n).length = n := by
  simp [memRead]; omega

/-! ### Sequences of operations -/

theorem andThen_eq_next {r : Result} {f : State → Result} {t : State} :
    andThen r f = .next t ↔ ∃ s, r = .next s ∧ f s = .next t := by
  cases r <;> simp [andThen]

theorem elapse_eq_next {r : Result} {t : State} :
    elapse r = .next t ↔ ∃ s, r = .next s ∧ t = passTime 0 s := by
  rw [elapse, andThen_eq_next]
  simp [eq_comm]

theorem runHandler_eq_next {h : State → HandlerOutcome × State} {s t : State} :
    runHandler h s = .next t ↔ t = complete (h s).1 (h s).2 := by
  simp [runHandler, eq_comm]

/-! ### Failure and completion -/

/-- The command word that completion leaves (R143, R203). -/
def completedCmd (c : Config) (o : HandlerOutcome) (w : Word) : Word :=
  match o with
  | .success => clearPending (clearError w)
  | .failure ec =>
    clearPending (if c.errcodeInCmd then setCode (setError w) (errLow ec) else setError w)

/-- Completion writes the command word, and on failure `P[0]`; nothing else changes. -/
theorem complete_eq (o : HandlerOutcome) (s : State) (h : 1 < s.regs.length) :
    complete o s =
      { s with regs :=
          match o with
          | .success => s.regs.set 0 (completedCmd s.cfg o s.cmd)
          | .failure ec => (s.regs.set 0 (completedCmd s.cfg o s.cmd)).set 1 (errPattern ec) } := by
  obtain ⟨cfg, regs, tr, rs, now, bt, xp, sc, lv, dr⟩ := s
  match regs, h with
  | a :: b :: r, _ =>
    cases o with
    | success => rfl
    | failure ec =>
      simp only [complete, failCommand, completedCmd]
      cases cfg.errcodeInCmd <;> rfl

theorem complete_cmd (o : HandlerOutcome) (s : State) (h : 1 < s.regs.length) :
    (complete o s).cmd = completedCmd s.cfg o s.cmd := by
  rw [complete_eq o s h]
  obtain ⟨cfg, regs, tr, rs, now, bt, xp, sc, lv, dr⟩ := s
  match regs, h with
  | a :: b :: r, _ => cases o <;> rfl

/-- Completion touches no field but the registers, whatever the state. -/
theorem complete_frame (o : HandlerOutcome) (s : State) :
    complete o s = { s with regs := (complete o s).regs } := by
  cases o with
  | success => rfl
  | failure ec =>
    simp only [complete, failCommand]
    split <;> rfl

theorem complete_length (o : HandlerOutcome) (s : State) :
    (complete o s).regs.length = s.regs.length := by
  cases o with
  | success => simp [complete]
  | failure ec =>
    simp only [complete, failCommand]
    split <;> simp

theorem clearPending_not_pending (w : Word) : cmdPending (clearPending w) = false := by
  simp [cmdPending, clearPending]

/-- After completion `P` is 0, whatever the state (R145). -/
theorem complete_not_pending (o : HandlerOutcome) (s : State) :
    cmdPending (complete o s).cmd = false := by
  have key : ∀ s1 : State, cmdPending (s1.writeH 0 (clearPending s1.cmd)).cmd = false := by
    intro s1
    rw [cmd_eq_H, writeH_H]
    split
    · exact clearPending_not_pending _
    · next h =>
      have h0 : s1.regs = [] := by simpa using h
      simp [State.H, h0, cmdPending]
  exact key _

theorem complete_H_ge_two (o : HandlerOutcome) (s : State) (i : Nat) (hi : 2 ≤ i) :
    (complete o s).H i = s.H i := by
  have h0 : (0 : Nat) ≠ i := by omega
  have h1 : (1 : Nat) ≠ i := by omega
  cases o with
  | success => simp only [complete, writeH_H_other _ _ _ _ h0]
  | failure ec =>
    simp only [complete, failCommand]
    split <;> simp only [writeH_H_other _ _ _ _ h0, writeH_H_other _ _ _ _ h1]

/-! ### The environment's answers -/

theorem setLevel_fst_mem {p q : Word} {v w : Level} {l : List (Word × Level)}
    (h : (q, w) ∈ setLevel p v l) : q = p ∨ (q, w) ∈ l := by
  induction l with
  | nil => simp [setLevel] at h; exact .inl h.1
  | cons e l ih =>
    obtain ⟨r, x⟩ := e
    simp only [setLevel] at h
    split at h
    · rcases List.mem_cons.mp h with h | h
      · exact .inl (Prod.mk.inj h).1
      · exact .inr h
    · split at h
      · rcases List.mem_cons.mp h with h | h
        · exact .inl (Prod.mk.inj h).1
        · exact .inr (List.mem_cons_of_mem _ h)
      · rcases List.mem_cons.mp h with h | h
        · exact .inr (by rw [h]; exact List.mem_cons_self)
        · exact (ih h).imp id (List.mem_cons_of_mem _)

/-- Fixing a level keeps the canonical form. -/
theorem setLevel_wf {p : Word} {v : Level} {l : List (Word × Level)} (h : levelsWf l) :
    levelsWf (setLevel p v l) := by
  induction l with
  | nil => simp [setLevel, levelsWf]
  | cons e l ih =>
    obtain ⟨r, x⟩ := e
    rw [levelsWf, List.pairwise_cons] at h
    obtain ⟨h1, h2⟩ := h
    simp only [setLevel]
    split
    · next hlt =>
      refine List.pairwise_cons.mpr ⟨fun b hb => ?_, List.pairwise_cons.mpr ⟨h1, h2⟩⟩
      rcases List.mem_cons.mp hb with rfl | hb
      · exact hlt
      · exact BitVec.lt_trans hlt (h1 b hb)
    · split
      · next heq => subst heq; exact List.pairwise_cons.mpr ⟨h1, h2⟩
      · next hlt hne =>
        refine List.pairwise_cons.mpr ⟨fun b hb => ?_, ih h2⟩
        obtain ⟨q, w⟩ := b
        rcases setLevel_fst_mem hb with rfl | hb
        · show r < q
          bv_omega
        · exact h1 _ hb

theorem drawLevel_frame (p : Word) (s : State) :
    (drawLevel p s).2 =
      { s with levels := (drawLevel p s).2.levels, draws := (drawLevel p s).2.draws } := by
  unfold drawLevel; split <;> rfl

theorem drawLevel_levels_wf (p : Word) (s : State) (h : levelsWf s.levels) :
    levelsWf (drawLevel p s).2.levels := by
  unfold drawLevel
  split
  · exact h.filter _
  · exact h

theorem drawLevel_fixed {p : Word} {s : State} {v : Level} (h : s.levels.lookup p = some v) :
    (drawLevel p s).1 = v := by
  unfold drawLevel; rw [h]

theorem emitLevelRead_frame (p : Word) (s : State) :
    (emitLevelRead p s).2 =
      { s with
        trace := s.trace ++ [.levelRead p (emitLevelRead p s).1]
        levels := (drawLevel p s).2.levels
        draws := (drawLevel p s).2.draws } := by
  show (drawLevel p s).2.emit _ = _
  rw [drawLevel_frame]; rfl

/-! ### The discipline of the trace -/

theorem traceOk_append (c : Config) (a b : List Event) (ha : traceOk c a = true)
    (hb : traceOk c b = true) : traceOk c (a ++ b) = true := by
  induction a using traceOk.induct with
  | case1 => exact hb
  | case2 p v q r ih =>
    simp only [List.cons_append, traceOk, Bool.and_eq_true] at ha ⊢
    exact ⟨ha.1, ih ha.2⟩
  | case3 p q l r ih =>
    simp only [List.cons_append, traceOk, Bool.and_eq_true] at ha ⊢
    exact ⟨ha.1, ih ha.2⟩
  | case4 ms r ih => exact ih ha
  | case5 ms b' r ih =>
    simp only [List.cons_append, traceOk, Bool.and_eq_true] at ha ⊢
    exact ⟨ha.1, ih ha.2⟩
  | case6 t h1 h2 h3 h4 h5 =>
    rw [traceOk] at ha
    · cases ha
    · exact h1
    · exact h2
    · exact h3
    · exact h4
    · exact h5

/-! ### Sizes and ranges -/

theorem State.Sized.three_le {s : State} (h : s.Sized) : 3 ≤ s.regs.length := by
  rw [h.2]
  exact (Config.wf_n h.1).1

theorem regs_getElem?_H (s : State) (i : Nat) (h : i < s.regs.length) :
    s.regs[i]? = some (s.H i) := by
  simp [State.H, h]

/-- A valid request lies in the file, under either policy (R64). -/
theorem validHold_le {c : Config} {addr len : Nat} (h : validHold c addr len = true) :
    addr + len ≤ c.n := by
  unfold validHold at h
  split at h <;> simp at h <;> omega

theorem dataLengthOk_iff (len : Word) (vs : List Word) :
    dataLengthOk len vs = true ↔ vs.length = len.toNat := by
  simp [dataLengthOk]

/-! ### The fixed answers, by pin -/

theorem lookup_setLevel (p q : Word) (v : Level) (l : List (Word × Level)) :
    (setLevel p v l).lookup q = if q = p then some v else l.lookup q := by
  induction l with
  | nil =>
    by_cases h : q = p
    · simp [setLevel, h]
    · have : (q == p) = false := by simpa using h
      simp [setLevel, List.lookup_cons, h, this]
  | cons e l ih =>
    obtain ⟨r, w⟩ := e
    by_cases h : q = p
    · simp only [setLevel, h, if_true]
      split
      · simp
      · split
        · simp
        · next h2 =>
          have : (p == r) = false := by simpa using h2
          rw [List.lookup_cons, this]
          simpa [h] using ih
    · have hq : (q == p) = false := by simpa using h
      simp only [setLevel, h, if_false]
      split
      · simp [List.lookup_cons, hq]
      · split
        · next h2 =>
          subst h2
          simp [List.lookup_cons, hq]
        · rw [List.lookup_cons, List.lookup_cons, ih, if_neg h]

theorem lookup_filter_same (l : List (Word × Level)) (p : Word) :
    (l.filter fun e => e.1 != p).lookup p = none := by
  induction l with
  | nil => rfl
  | cons e l ih =>
    obtain ⟨r, v⟩ := e
    by_cases h : r = p
    · simp [h, ih]
    · have : (p == r) = false := by simpa using fun k => h k.symm
      simp [h, List.lookup_cons, ih, this]

theorem lookup_filter_other (l : List (Word × Level)) {p q : Word} (h : q ≠ p) :
    (l.filter fun e => e.1 != p).lookup q = l.lookup q := by
  induction l with
  | nil => rfl
  | cons e l ih =>
    obtain ⟨r, v⟩ := e
    by_cases k : r = p
    · have : (q == r) = false := by simpa [k] using h
      simp [k, ih, List.lookup_cons]
      rw [k] at this
      rw [this]
    · simp [k, List.lookup_cons, ih]

/-- A read uses up the answer fixed for its pin, and no other pin's (R107). -/
theorem drawLevel_lookup (p q : Word) (s : State) :
    (drawLevel p s).2.levels.lookup q = if q = p then none else s.levels.lookup q := by
  unfold drawLevel
  split
  · by_cases h : q = p
    · rw [if_pos h, h]
      exact lookup_filter_same _ _
    · rw [if_neg h]
      exact lookup_filter_other _ h
  · next hn =>
    split
    · next h => rw [h]; exact hn
    · rfl

/-! ### What the trace says of a pin -/

theorem pinMode_append (p : Word) (a b : List Event) :
    pinMode p (a ++ b) = (pinMode p b).or (pinMode p a) := by
  induction a with
  | nil => simp [pinMode]
  | cons e a ih => cases e <;> simp [pinMode, ih, Option.or_assoc]

theorem pinValue_append (p : Word) (a b : List Event) :
    pinValue p (a ++ b) = (pinValue p b).or (pinValue p a) := by
  induction a with
  | nil => simp [pinValue]
  | cons e a ih => cases e <;> simp [pinValue, ih, Option.or_assoc]

end Sys2Proof.Machine
end

