-- ==== Sys2Proof/Laws/Exec.lean ====
section
/-! SUPPORT. What any operation can do to the state, said once (`exec_advance`): the invariants of a step follow from
it without unfolding a meaning again. -/

namespace Sys2Proof.Machine

open Sys2Proof

/-- What every operation that answers a next state keeps or only extends. -/
structure Advance (s t : State) : Prop where
  cfg : t.cfg = s.cfg
  boot : t.boot = s.boot
  script : t.script = s.script
  length : t.regs.length = s.regs.length
  trace : ∃ ev, t.trace = s.trace ++ ev ∧ traceOk s.cfg ev = true
  responses : ∃ rs, t.responses = s.responses ++ rs
  now : s.nowMs ≤ t.nowMs
  levels : levelsWf s.levels → levelsWf t.levels
  xport : t.xport = s.xport ∨ t.xport = .opened s.cfg.baud

theorem Advance.refl (s : State) : Advance s s where
  cfg := rfl
  boot := rfl
  script := rfl
  length := rfl
  trace := ⟨[], (List.append_nil _).symm, rfl⟩
  responses := ⟨[], (List.append_nil _).symm⟩
  now := Nat.le_refl _
  levels := id
  xport := .inl rfl

theorem Advance.trans {s t u : State} (h : Advance s t) (k : Advance t u) : Advance s u where
  cfg := k.cfg.trans h.cfg
  boot := k.boot.trans h.boot
  script := k.script.trans h.script
  length := k.length.trans h.length
  trace := by
    obtain ⟨a, ha, oa⟩ := h.trace
    obtain ⟨b, hb, ob⟩ := k.trace
    rw [h.cfg] at ob
    exact ⟨a ++ b, by rw [hb, ha, List.append_assoc], traceOk_append _ _ _ oa ob⟩
  responses := by
    obtain ⟨a, ha⟩ := h.responses
    obtain ⟨b, hb⟩ := k.responses
    exact ⟨a ++ b, by rw [hb, ha, List.append_assoc]⟩
  now := Nat.le_trans h.now k.now
  levels := k.levels ∘ h.levels
  xport := by
    rcases k.xport with e | e
    · rw [e]; exact h.xport
    · rw [e, h.cfg]; exact .inr rfl

/-- Only registers changed, and their number did not. -/
theorem Advance.of_regs {s : State} {r : List Word} (h : r.length = s.regs.length) :
    Advance s { s with regs := r } :=
  { Advance.refl s with length := h }

theorem respond_advance (s : State) (r : BusRsp) : Advance s (s.respond r) :=
  { Advance.refl s with responses := ⟨[r], rfl⟩ }

theorem complete_advance (o : HandlerOutcome) (s : State) : Advance s (complete o s) := by
  rw [complete_frame]; exact .of_regs (complete_length o s)

theorem passTime_advance (d : Nat) (s : State) : Advance s (passTime d s) :=
  { Advance.refl s with now := by simp; omega }

/-! ### The handlers -/

theorem setPinHandler_advance (s : State) : Advance s (setPinHandler s).2 := by
  unfold setPinHandler
  split
  · next h =>
    exact { Advance.refl s with
      trace := ⟨[.levelWrite s.pinOperand s.stateOperand, .dirConfig s.pinOperand .output],
        by simp, by simp [traceOk, h]⟩ }
  · exact .refl s

theorem getPinHandler_advance (s : State) : Advance s (getPinHandler s).2 := by
  unfold getPinHandler
  split
  · exact .refl s
  · next h =>
    simp only
    rw [emitLevelRead_frame]
    exact { Advance.refl s with
      length := by simp
      trace := ⟨[.dirConfig s.pinOperand .inputPullup, .levelRead s.pinOperand _],
        by simp; rfl, by simp [traceOk, h]⟩
      levels := fun hw => drawLevel_levels_wf _ (s.emit _) hw }

theorem delayXHandler_advance (s : State) : Advance s (delayXHandler s).2 :=
  { Advance.refl s with
    trace := ⟨[.xportSuspend, .wait s.msOperand, .xportResume s.cfg.baud],
      by simp [delayXHandler], by simp [traceOk]⟩
    now := by simp [delayXHandler]; omega
    xport := .inr rfl }

theorem delayHandler_advance (s : State) : Advance s (delayHandler s).2 := by
  unfold delayHandler
  split
  · exact delayXHandler_advance s
  · exact { Advance.refl s with
      trace := ⟨[.wait s.msOperand], by simp, rfl⟩
      now := by simp; omega }

/-- A handler that fails has done nothing (R160, R162). -/
theorem setPinHandler_failure {s : State} {ec : ErrCode} (h : (setPinHandler s).1 = .failure ec) :
    (setPinHandler s).2 = s ∧ ec = .illegalParam := by
  unfold setPinHandler at h ⊢
  split at h
  · cases h
  · next hp => simp only [hp] at h ⊢; cases h; exact ⟨rfl, rfl⟩

theorem getPinHandler_failure {s : State} {ec : ErrCode} (h : (getPinHandler s).1 = .failure ec) :
    (getPinHandler s).2 = s ∧ ec = .illegalParam := by
  unfold getPinHandler at h ⊢
  split at h
  · next hp => simp only [hp] at h ⊢; cases h; exact ⟨rfl, rfl⟩
  · cases h

theorem delayHandler_success (s : State) : (delayHandler s).1 = .success := by
  unfold delayHandler; split <;> rfl

/-! ### The operations -/

theorem runHandler_advance {h : State → HandlerOutcome × State} {s t : State}
    (hh : Advance s (h s).2) (e : runHandler h s = .next t) : Advance s t := by
  rw [runHandler_eq_next] at e
  subst e
  exact hh.trans (complete_advance _ _)

theorem execDispatch_advance {s t : State} (e : execDispatch s = .next t) : Advance s t := by
  unfold execDispatch at e
  split at e
  · split at e
    · exact runHandler_advance (setPinHandler_advance s) e
    · exact runHandler_advance (getPinHandler_advance s) e
    · exact runHandler_advance (delayHandler_advance s) e
    · exact runHandler_advance (delayXHandler_advance s) e
    · exact runHandler_advance (.refl s) e
    · exact runHandler_advance (.refl s) e
  · cases e; exact .refl s

theorem memWrite_advance (s : State) (a : Nat) (vs : List Word) : Advance s (memWrite s a vs) :=
  .of_regs (writeWords_length vs s.regs a)

theorem performBus_advance {op : BusOp} {s t : State} (e : performBus op s = .next t) :
    Advance s t := by
  cases op with
  | rdHold a l =>
    simp only [performBus, execRdHold] at e
    split at e <;> cases e <;> exact respond_advance s _
  | wrHold a l vs =>
    simp only [performBus, execWrHold] at e
    split at e
    · split at e <;> cases e
      · exact (memWrite_advance s _ _).trans (respond_advance _ _)
      · exact respond_advance s _
    · cases e
  | rdIn a l =>
    simp only [performBus, execRdIn] at e
    split at e <;> cases e <;> exact respond_advance s _
  | wrIn a l vs =>
    simp only [performBus, execWrIn] at e
    cases e; exact respond_advance s _

theorem execPollCycle_advance {op : Option BusOp} {s t : State}
    (e : execPollCycle op s = .next t) : Advance s t := by
  cases op with
  | none => exact execDispatch_advance e
  | some b =>
    obtain ⟨u, h1, h2⟩ := andThen_eq_next.mp e
    exact (performBus_advance h1).trans (execDispatch_advance h2)

/-- What any operation can do. -/
theorem exec_advance {i : Instr} {s t : State} (e : exec i s = .next t) : Advance s t := by
  cases i with
  | setPin => exact runHandler_advance (setPinHandler_advance s) e
  | getPin => exact runHandler_advance (getPinHandler_advance s) e
  | delay => exact runHandler_advance (delayHandler_advance s) e
  | delayX => exact runHandler_advance (delayXHandler_advance s) e
  | test => exact runHandler_advance (h := testHandler) (.refl s) e
  | illCmd k => exact runHandler_advance (h := illCmdHandler) (.refl s) e
  | noCmd r => cases e; exact .refl s
  | rdHold a l => exact performBus_advance (op := .rdHold a l) e
  | wrHold a l vs => exact performBus_advance (op := .wrHold a l vs) e
  | rdIn a l => exact performBus_advance (op := .rdIn a l) e
  | wrIn a l vs => exact performBus_advance (op := .wrIn a l vs) e
  | dispatch => exact execDispatch_advance e
  | pollCycle op => exact execPollCycle_advance e
  | call x args k =>
    obtain ⟨u, h1, h2⟩ := andThen_eq_next.mp e
    exact (execPollCycle_advance h1).trans (execPollCycle_advance h2)
  | clrErr => exact performBus_advance (op := .wrHold 0 1 [0]) e

/-! ### A step -/

theorem step_running {s : State} (h : s.boot = .running) : step s = stepRunning s := by
  unfold step; rw [h]

theorem stepRunning_empty {s : State} (h : s.script = []) :
    stepRunning s = elapse (exec .dispatch s) := by
  unfold stepRunning; rw [h]

theorem stepRunning_tick {s : State} {d : Nat} {rest : List Input} (h : s.script = .tick d :: rest) :
    stepRunning s = .next (doTick d { s with script := rest }) := by
  unfold stepRunning; rw [h]

theorem stepRunning_level {s : State} {p : Word} {v : Level} {rest : List Input}
    (h : s.script = .level p v :: rest) :
    stepRunning s = .next (doLevel p v { s with script := rest }) := by
  unfold stepRunning; rw [h]

theorem stepRunning_op {s : State} {p : PortOp} {rest : List Input} {i : Instr}
    (h : s.script = .op p :: rest) (hd : decodePort p = .ok i) :
    stepRunning s = elapse (exec i { s with script := rest }) := by
  unfold stepRunning; rw [h]; simp only [hd]

/-- What a step of the running loop can be. -/
theorem stepRunning_cases {s t : State} (h : stepRunning s = .next t) :
    (s.script = [] ∧ ∃ u, exec .dispatch s = .next u ∧ t = passTime 0 u) ∨
    (∃ d rest, s.script = .tick d :: rest ∧ t = doTick d { s with script := rest }) ∨
    (∃ p v rest, s.script = .level p v :: rest ∧ t = doLevel p v { s with script := rest }) ∨
    (∃ p rest i u, s.script = .op p :: rest ∧ decodePort p = .ok i ∧
      exec i { s with script := rest } = .next u ∧ t = passTime 0 u) := by
  unfold stepRunning at h
  split at h
  · next hs => exact .inl ⟨hs, elapse_eq_next.mp h⟩
  · next d rest hs => cases h; exact .inr (.inl ⟨d, rest, hs, rfl⟩)
  · next p v rest hs => cases h; exact .inr (.inr (.inl ⟨p, v, rest, hs, rfl⟩))
  · next p rest hs =>
    split at h
    · next i hi =>
      obtain ⟨u, h1, h2⟩ := elapse_eq_next.mp h
      exact .inr (.inr (.inr ⟨p, rest, i, u, hs, hi, h1, h2⟩))
    · cases h

/-- What a step can be: a stage of the boot sequence, or a step of the loop. -/
theorem step_cases {s t : State} (h : step s = .next t) :
    (s.boot = .created ∧ t = bootRegister s) ∨ (s.boot = .registered ∧ t = bootOpen s) ∨
    (s.boot = .running ∧ stepRunning s = .next t) := by
  unfold step at h
  split at h
  · next hb => cases h; exact .inl ⟨hb, rfl⟩
  · next hb => cases h; exact .inr (.inl ⟨hb, rfl⟩)
  · next hb => exact .inr (.inr ⟨hb, h⟩)

/-- A bus request with the data it owes completes, with one response. -/
theorem performBus_next (op : BusOp) (s : State) (h : op.wf = true) :
    ∃ t r, performBus op s = .next t ∧ t.responses = s.responses ++ [r] := by
  cases op with
  | rdHold a l =>
    simp only [performBus, execRdHold]
    split <;> exact ⟨_, _, rfl, rfl⟩
  | wrHold a l vs =>
    have hd : dataLengthOk l vs = true := h
    simp only [performBus, execWrHold, hd, if_true]
    split <;> exact ⟨_, _, rfl, rfl⟩
  | rdIn a l =>
    simp only [performBus, execRdIn]
    split <;> exact ⟨_, _, rfl, rfl⟩
  | wrIn a l vs => exact ⟨_, _, rfl, rfl⟩

theorem exec_busInstr (op : BusOp) (s : State) : exec (busInstr op) s = performBus op s := by
  cases op <;> rfl

end Sys2Proof.Machine
end

