-- ==== Sys2Proof/Laws/PerInstr.lean ====
section
/-! SUPPORT. Per operation: which of the two decoded things (30_encoding.md) its encoding is. -/

namespace Sys2Proof.Laws

/-- What stands where an operation is found: a command word that is pending, one that is not, or an operation at the
port. -/
inductive Place where
  | pendingWord
  | idleWord
  | port
deriving DecidableEq, Repr

/-- The place of an encoding. -/
def placeOf : Raw → Place
  | .cmdw w => if cmdPending w then .pendingWord else .idleWord
  | .port _ => .port

/-- The place that the opcode table's encodings give an operation: the rows with bit 15 set are pending words, `NOCMD` a
word that is not, the others are operations at the port. -/
def placeOfRow : Instr → Place
  | .setPin | .getPin | .delay | .delayX | .test | .illCmd _ => .pendingWord
  | .noCmd _ => .idleWord
  | .rdHold _ _ | .wrHold _ _ _ | .rdIn _ _ | .wrIn _ _ _ => .port
  | .dispatch | .pollCycle _ | .call _ _ _ | .clrErr => .port

namespace EncodedPlace

/-- In every configuration the operation is encoded at the place of its row. -/
def Statement (i : Instr) : Prop := ∀ c : Config, placeOf (encode c i) = placeOfRow i

theorem setPin : Statement .setPin := fun c => if_pos (submitted_pending (c.code .setPin))
theorem getPin : Statement .getPin := fun c => if_pos (submitted_pending (c.code .getPin))
theorem delay : Statement .delay := fun c => if_pos (submitted_pending (c.code .delay))
theorem delayX : Statement .delayX := fun c => if_pos (submitted_pending (c.code .delayX))
theorem test : Statement .test := fun c => if_pos (submitted_pending (c.code .test))
theorem illCmd (k : BitVec 14) : Statement (.illCmd k) := fun _ => if_pos (submitted_pending k)
theorem noCmd (r : BitVec 15) : Statement (.noCmd r) := fun _ => by
  simp [placeOf, placeOfRow, encode, idle_not_pending]
theorem rdHold (addr len : Word) : Statement (.rdHold addr len) := fun _ => rfl
theorem wrHold (addr len : Word) (values : List Word) : Statement (.wrHold addr len values) :=
  fun _ => rfl
theorem rdIn (addr len : Word) : Statement (.rdIn addr len) := fun _ => rfl
theorem wrIn (addr len : Word) (values : List Word) : Statement (.wrIn addr len values) :=
  fun _ => rfl
theorem dispatch : Statement .dispatch := fun _ => rfl
theorem pollCycle (op : Option BusOp) : Statement (.pollCycle op) := fun _ => by cases op <;> rfl
theorem call (x : Cmd) (args : List Word) (k : Word) : Statement (.call x args k) := fun _ => rfl
theorem clrErr : Statement .clrErr := fun _ => rfl

end EncodedPlace

end Sys2Proof.Laws
end

