-- ==== Sys2Proof/Tests/Slice0.lean ====
section
/-! SUPPORT. The model's own tests, and for every statement with hypotheses a witness that meets them. Expected results
are those of 95_test_vectors.md (named by their ids there) or are written out from the encodings of 30_encoding.md. -/

namespace Sys2Proof.Tests

open Sys2Proof Sys2Proof.Machine

/-! ### WellFormed refuses what is ill formed -/

theorem test_wf_reference : Config.reference.wf = true := by decide

theorem test_wf_two_registers : (Config.wf { Config.reference with n := 2 }) = false := by decide

theorem test_wf_too_many_registers : (Config.wf { Config.reference with n := 65536 }) = false := by
  decide

theorem test_wf_same_code_twice : (Config.wf { Config.reference with codeTest := 1 }) = false := by
  decide

theorem test_wf_allowed_pins_unsorted :
    (Config.wf { Config.reference with setPinAllowed := [13, 2] }) = false := by decide

theorem test_wf_disallowed_pins_repeated :
    (Config.wf { Config.reference with getPinDisallowed := [1, 1] }) = false := by decide

theorem test_wf_illCmd_of_a_mapped_code : Instr.wf Config.reference (.illCmd 3) = false := by decide

theorem test_wf_wrHold_data_short : Instr.wf Config.reference (.wrHold 0 2 [1]) = false := by decide

theorem test_wf_pollCycle_data_long :
    Instr.wf Config.reference (.pollCycle (some (.wrHold 0 0 [1]))) = false := by decide

theorem test_wf_call_too_many_arguments :
    Instr.wf Config.reference (.call .test (List.replicate 65535 0) 3) = false := by
  rw [Instr.wf, List.length_replicate]
  rfl

/-! ### Decoding, from words written out -/

/-- Bit 15, then the code 1 in bits 13:0. -/
theorem test_decode_setPin : decodeCmd Config.reference 0b1000000000000001#16 = .setPin := by decide

theorem test_decode_getPin : decodeCmd Config.reference 0b1000000000000010#16 = .getPin := by decide

theorem test_decode_delay : decodeCmd Config.reference 0b1000000000000011#16 = .delay := by decide

theorem test_decode_delayX : decodeCmd Config.reference 0b1000000000000100#16 = .delayX := by decide

/-- D7: bit 14 set beside bit 15 takes no part. -/
theorem test_decode_test : decodeCmd Config.reference 0b1100000000000101#16 = .test := by decide

theorem test_decode_illCmd : decodeCmd Config.reference 0b1000000100100011#16 = .illCmd 0x123 := by
  decide

/-- D6: all 14 bits of the code. -/
theorem test_decode_illCmd_all_ones : decodeCmd Config.reference 0xFFFF = .illCmd 0x3FFF := by decide

/-- D3: every bit but bit 15. -/
theorem test_decode_noCmd : decodeCmd Config.reference 0b0111111111111111#16 = .noCmd 0x7FFF := by
  decide

/-- Another mapping routes by its own codes (R101). -/
theorem test_decode_other_codes :
    decodeCmd { Config.reference with codeTest := 0x3FFF, codeSetPin := 9 } 0xBFFF = .test := by decide

/-- Program 1, step 4. -/
theorem test_decode_rdHold : decodePort (.bus ⟨0, 0, 3, []⟩) = .ok (.rdHold 0 3) := by decide

/-- Program 5, step 1. -/
theorem test_decode_wrHold : decodePort (.bus ⟨1, 1, 1, [0x0064]⟩) = .ok (.wrHold 1 1 [0x0064]) := by
  decide

/-- Program 2, step 1. -/
theorem test_decode_rdIn : decodePort (.bus ⟨2, 2, 1, []⟩) = .ok (.rdIn 2 1) := by decide

/-- Program 4, step 6. -/
theorem test_decode_wrIn : decodePort (.bus ⟨3, 0, 1, [0x0001]⟩) = .ok (.wrIn 0 1 [0x0001]) := by decide

theorem test_decode_dispatch : decodePort .strobe = .ok .dispatch := by decide

/-- Program 1, steps 2 and 3. -/
theorem test_decode_pollCycle :
    decodePort (.poll (some ⟨1, 0, 3, [0x8005, 7, 42]⟩)) =
      .ok (.pollCycle (some (.wrHold 0 3 [0x8005, 7, 42]))) ∧
    decodePort (.poll none) = .ok (.pollCycle none) := by decide

theorem test_decode_call : decodePort (.call .test [7, 42] 3) = .ok (.call .test [7, 42] 3) := by decide

theorem test_decode_clrErr : decodePort .clrErr = .ok .clrErr := by decide

theorem test_decode_refuses_data_length : decodePort (.bus ⟨1, 0, 2, [7]⟩) = .error .dataLength := by
  decide

theorem test_decode_refuses_data_on_read :
    decodePort (.bus ⟨0, 0, 1, [7]⟩) = .error .dataOnRead ∧
    decodePort (.poll (some ⟨2, 0, 1, [7]⟩)) = .error .dataOnRead := by decide

theorem test_tableWord_commands :
    [0x8001, 0x8002, 0x8003, 0x8004, 0x8005, 0x8000, 0].map (decodeTableWord 16) =
      [some .setPin, some .getPin, some .delay, some .delayX, some .test, some (.illCmd 0),
        some (.noCmd 0)] := by decide

theorem test_tableWord_requests :
    [0, 1, 2, 3].map (decodeTableWord 8) =
      [some (.rdHold 0 0), some (.wrHold 0 0 []), some (.rdIn 0 0), some (.wrIn 0 0 [])] := by decide

/-! ### Small states -/

/-- The block in the loop, in configuration `c`, with eight registers and a time. -/
def unitOf (c : Config) (regs : List Word) (now : Nat) : State :=
  { State.resetWith c with regs := regs, nowMs := now, boot := .running, xport := .opened c.baud }

/-- The reference configuration, `H` = [w, a, b, 0, 0, 0, 0, 0]. -/
def unit (w a b : Word) : State := unitOf Config.reference [w, a, b, 0, 0, 0, 0, 0] 0

/-- The start of the vectors B1 to B22. -/
def unitB (p : AddrPolicy) : State :=
  unitOf { Config.reference with addrPolicy := p }
    [0x0005, 0x0007, 0x002A, 0, 0, 0, 0, 0xBEEF] 0

/-- The registers and the events after an operation that completes. -/
def seen : Result → Option (List Word × List Event)
  | .next t => some (t.regs, t.trace)
  | .fault _ => none
  | .refused _ => none

/-- The registers and the responses after an operation that completes. -/
def answered : Result → Option (List Word × List BusRsp)
  | .next t => some (t.regs, t.responses)
  | .fault _ => none
  | .refused _ => none

/-! ### The operations, one step each -/

/-- P3. -/
theorem test_setPin_allowed :
    seen (exec .dispatch (unit 0x8001 13 0xFFFF)) =
      some ([0x0001, 13, 0xFFFF, 0, 0, 0, 0, 0], [.levelWrite 13 0xFFFF, .dirConfig 13 .output]) := by
  decide

/-- P5: no truncation of the pin. -/
theorem test_setPin_refused :
    seen (exec .setPin (unit 0x8001 0x010D 1)) =
      some ([0x4001, 0xFFFE, 1, 0, 0, 0, 0, 0], []) := by decide

/-- G1. -/
theorem test_getPin_level :
    seen (exec .dispatch { unit 0x8002 7 0x1234 with levels := [(7, 1)] }) =
      some ([0x0002, 7, 1, 0, 0, 0, 0, 0], [.dirConfig 7 .inputPullup, .levelRead 7 1]) := by decide

/-- G4. -/
theorem test_getPin_refused :
    seen (exec .getPin (unit 0x8002 1 0x1234)) =
      some ([0x4002, 0xFFFE, 0x1234, 0, 0, 0, 0, 0], []) := by decide

/-- L3. -/
theorem test_delay_buffer :
    seen (exec .dispatch (unit 0x8003 0xFFFF 0)) =
      some ([0x0003, 0xFFFF, 0, 0, 0, 0, 0, 0], [.wait 0xFFFF]) := by decide

/-- L5. -/
theorem test_delay_drop :
    seen (exec .delay (unitOf { Config.reference with delayRxPolicy := .drop }
        [0x8003, 250, 0, 0, 0, 0, 0, 0] 1000)) =
      some ([0x0003, 250, 0, 0, 0, 0, 0, 0], [.xportSuspend, .wait 250, .xportResume 19200]) := by
  decide

/-- X1. -/
theorem test_delayX :
    seen (exec .dispatch (unit 0x8004 100 0)) =
      some ([0x0004, 100, 0, 0, 0, 0, 0, 0], [.xportSuspend, .wait 100, .xportResume 19200]) := by decide

/-- D7. -/
theorem test_test_ignores_written_error :
    seen (exec .dispatch (unit 0xC005 7 42)) = some ([0x0005, 7, 42, 0, 0, 0, 0, 0], []) := by decide

/-- D4. -/
theorem test_illCmd : seen (exec .dispatch (unit 0x8123 7 0x2A)) =
    some ([0x4123, 0xFFFF, 0x2A, 0, 0, 0, 0, 0], []) := by decide

/-- D11. -/
theorem test_illCmd_errcode_in_cmd :
    seen (exec .dispatch (unitOf { Config.reference with errcodeInCmd := true }
        [0x8123, 7, 42, 0, 0, 0, 0, 0] 0)) =
      some ([0x7FFF, 0xFFFF, 42, 0, 0, 0, 0, 0], []) := by decide

/-- D2: `E` stays 1. -/
theorem test_noCmd : seen (exec .dispatch (unit 0x4123 0xFFFF 0x2A)) =
    some ([0x4123, 0xFFFF, 0x2A, 0, 0, 0, 0, 0], []) := by decide

/-- D12: a dispatch that fails under `ERRCODE_IN_CMD`. -/
theorem test_dispatch_errcode_in_cmd :
    seen (exec .dispatch (unitOf { Config.reference with errcodeInCmd := true }
        [0x8001, 12, 1, 0, 0, 0, 0, 0] 0)) =
      some ([0x7FFE, 0xFFFE, 1, 0, 0, 0, 0, 0], []) := by decide

/-- B7, B10. -/
theorem test_rdHold :
    answered (exec (.rdHold 7 1) (unitB .subRange)) =
      some ((unitB .subRange).regs, [⟨.ok, some [0xBEEF]⟩]) ∧
    answered (exec (.rdHold 8 0) (unitB .wholeBlock)) =
      some ((unitB .wholeBlock).regs, [⟨.addressError, none⟩]) := by decide

/-- B14, B20. -/
theorem test_wrHold :
    answered (exec (.wrHold 0 2 [0x1111, 0x2222]) (unitB .wholeBlock)) =
      some ([0x1111, 0x2222, 0x002A, 0, 0, 0, 0, 0xBEEF], [⟨.ok, none⟩]) ∧
    answered (exec (.wrHold 7 2 [0xAAAA, 0xBBBB]) (unitB .subRange)) =
      some ((unitB .subRange).regs, [⟨.addressError, none⟩]) := by decide

/-- I6. -/
theorem test_rdIn :
    answered (exec (.rdIn 0 3) (unitOf Config.reference [0, 0, 0, 0, 0, 0, 0, 0] 70000)) =
      some ([0, 0, 0, 0, 0, 0, 0, 0], [⟨.ok, some [0x0100, 0x0203, 0x1170]⟩]) := by decide

/-- I9, I10. -/
theorem test_rdIn_edge :
    answered (exec (.rdIn 3 0) (unit 0 0 0)) = some ((unit 0 0 0).regs, [⟨.ok, some []⟩]) ∧
    answered (exec (.rdIn 4 0) (unit 0 0 0)) = some ((unit 0 0 0).regs, [⟨.addressError, none⟩]) := by
  decide

/-- I11. -/
theorem test_wrIn : answered (exec (.wrIn 0 1 [0x1234]) (unit 5 6 7)) =
    some ((unit 5 6 7).regs, [⟨.addressError, none⟩]) := by decide

/-- S7, in one poll cycle: the request, then the dispatch. -/
theorem test_pollCycle : answered (exec (.pollCycle (some (.wrHold 0 3 [0x8005, 7, 42]))) (unit 0 0 0)) =
    some ([0x0005, 7, 42, 0, 0, 0, 0, 0], [⟨.ok, none⟩]) := by decide

/-- Program 1, step 4: the answer is that of the registers before the dispatch of the cycle. -/
theorem test_pollCycle_reads_before_dispatch :
    answered (exec (.pollCycle (some (.rdHold 0 1))) (unit 0x8005 7 42)) =
      some ([0x0005, 7, 42, 0, 0, 0, 0, 0], [⟨.ok, some [0x8005]⟩]) := by decide

/-- S4 and its read-back. -/
theorem test_call :
    answered (exec (.call .setPin [13, 1] 3) (unit 0 0 0)) =
      some ([0x0001, 13, 1, 0, 0, 0, 0, 0], [⟨.ok, none⟩, ⟨.ok, some [0x0001, 13, 1]⟩]) ∧
    seen (exec (.call .setPin [13, 1] 3) (unit 0 0 0)) =
      some ([0x0001, 13, 1, 0, 0, 0, 0, 0], [.levelWrite 13 1, .dirConfig 13 .output]) := by decide

/-- Program 4, step 5. -/
theorem test_clrErr : answered (exec .clrErr (unit 0x4123 0xFFFF 6)) =
    some ([0x0000, 0xFFFF, 6, 0, 0, 0, 0, 0], [⟨.ok, none⟩]) := by decide

/-- Z1. -/
theorem test_reset_reads_zero : answered (exec (.rdHold 0 8) State.reset) =
    some ([0, 0, 0, 0, 0, 0, 0, 0], [⟨.ok, some [0, 0, 0, 0, 0, 0, 0, 0]⟩]) := by decide

/-- A table word is run by the very next step after reset. -/
theorem test_step_runs_table_word :
    seen (step (State.reset.withFetchWord 16 0x8123)) =
      some ([0x4123, 0xFFFF, 0, 0, 0, 0, 0, 0], []) ∧
    answered (step (State.reset.withFetchWord 8 3)) =
      some ([0, 0, 0, 0, 0, 0, 0, 0], [⟨.addressError, none⟩]) := by decide

/-! ### Witnesses of the statements' hypotheses -/

theorem unit_sized (w a b : Word) : (unit w a b).Sized := by
  refine ⟨?_, rfl⟩
  exact test_wf_reference

/-- The reference configuration under the other of each policy. -/
def otherConfig : Config :=
  { Config.reference with
    addrPolicy := .subRange, delayRxPolicy := .drop, errcodeInCmd := true, schedule := .canonical }

/-- A sized state in the other configuration. -/
def other (w a b : Word) : State := unitOf otherConfig [w, a, b, 0, 0, 0, 0, 0xBEEF] 70000

theorem other_sized (w a b : Word) : (other w a b).Sized := by
  refine ⟨?_, rfl⟩
  show otherConfig.wf = true
  decide

theorem witness_DecodeOfEncodeIsIdentity :
    Config.reference.wf = true ∧ Instr.wf Config.reference (.illCmd 0x3FFF) = true ∧
    Instr.wf Config.reference (.wrHold 65535 1 [7]) = true ∧
    Instr.wf Config.reference (.pollCycle (some (.wrHold 0 0 []))) = true ∧
    Instr.wf Config.reference (.call .delay [9] 0) = true := by decide

theorem witness_DecodeOfEncodeIsIdentity_longest_call :
    Instr.wf Config.reference (.call .test (List.replicate 65534 0) 3) = true := by
  rw [Instr.wf, List.length_replicate]
  rfl

/-- Of O2 and O3; every other hypothesis there is a free variable. -/
theorem witness_CommandSelectedByMatchAndMask :
    Config.reference.wf = true ∧ otherConfig.wf = true := by decide

theorem witness_RequestKindsDecode :
    ([] : List Word).length = (0#16).toNat ∧ ([7] : List Word).length = (1#16).toNat ∧
    ([7] : List Word).length ≠ (0#16).toNat ∧ ([] : List Word).length ≠ (65535#16).toNat := by decide

/-- Of O6 and O7: the last range in, the first out, under each policy (B1, B4, B9, B11, B10). -/
theorem witness_ReadHoldingRegisters :
    (unitB .wholeBlock).Sized ∧ (unitB .subRange).Sized ∧
    HoldRange (unitB .wholeBlock).cfg 0 8 ∧ ¬ HoldRange (unitB .wholeBlock).cfg 0 9 ∧
    ¬ HoldRange (unitB .wholeBlock).cfg 8 0 ∧
    HoldRange (unitB .subRange).cfg 8 0 ∧ HoldRange (unitB .subRange).cfg 7 1 ∧
    ¬ HoldRange (unitB .subRange).cfg 9 0 ∧ ¬ HoldRange (unitB .subRange).cfg 7 2 := by
  unfold HoldRange
  decide

theorem witness_WriteHoldingRegisters :
    (unitB .wholeBlock).Sized ∧ (unitB .subRange).Sized ∧
    ([0x8005, 7] : List Word).length = (2#16).toNat ∧ HoldRange (unitB .wholeBlock).cfg 0 2 ∧
    ([7] : List Word).length = (1#16).toNat ∧ HoldRange (unitB .subRange).cfg 7 1 ∧
    ¬ HoldRange (unitB .subRange).cfg 8 1 ∧ ¬ HoldRange (unitB .wholeBlock).cfg 1 1 := by
  unfold HoldRange
  decide

/-- The clause on flags: an address of 0 and a first word. -/
theorem witness_WriteHoldingRegisters_flags :
    (0#16).toNat = 0 ∧ ([0x8005, 7] : List Word) = 0x8005 :: [7] := by decide

theorem witness_WriteWithWrongDataLengthHasNoStep :
    ([7] : List Word).length ≠ (0#16).toNat ∧ ([] : List Word).length ≠ (1#16).toNat := by decide

/-- The smallest wrapping sum. -/
theorem witness_RangeSumDoesNotWrap :
    (unitB .subRange).cfg.wf = true ∧ 65536 ≤ (65535#16).toNat + (1#16).toNat ∧
    ([7] : List Word).length = (1#16).toNat := by decide

theorem witness_AccessFromZeroAgreesUnderBothPolicies :
    ([] : List Word).length = (0#16).toNat ∧ ([7] : List Word).length = (1#16).toNat := by decide

/-- The last range in and the first out (I9, I10). -/
theorem witness_ReadInputRegisters :
    (0#16).toNat + (3#16).toNat ≤ 3 ∧ (3#16).toNat + (0#16).toNat ≤ 3 ∧
    3 < (4#16).toNat + (0#16).toNat ∧ 3 < (65535#16).toNat + (2#16).toNat := by decide

/-- Between the two reads the counter wraps (I4, I5). -/
theorem witness_UptimeDifferenceModulo65536 :
    (unitOf Config.reference [] 65535).nowMs ≤ (unitOf Config.reference [] 65536).nowMs := by decide

theorem witness_AddressErrorHasNoEffect :
    ∃ t r, exec (busInstr (.rdHold 0 9)) (unit 5 7 42) = .next t ∧
      t.responses = (unit 5 7 42).responses ++ [r] ∧ r.status = .addressError :=
  ⟨_, ⟨.addressError, none⟩, rfl, rfl, rfl⟩

theorem witness_AddressErrorCauses :
    BusOp.wf (.wrHold 0 1 [7]) = true ∧ BusOp.wf (.wrIn 9 1 [1]) = true ∧
    ∃ t, exec .dispatch (unit 0x8005 7 42) = .next t := ⟨by decide, by decide, _, rfl⟩

theorem witness_OneResponsePerRequest :
    (unit 5 7 42).Sized ∧ (∃ t, exec (busInstr (.rdHold 0 8)) (unit 5 7 42) = .next t) ∧
    (∃ t, exec (busInstr (.rdIn 3 0)) (unit 5 7 42) = .next t) ∧
    ∃ t, exec (busInstr (.wrHold 0 9 [1, 2, 3, 4, 5, 6, 7, 8, 9])) (unit 5 7 42) = .next t :=
  ⟨unit_sized _ _ _, ⟨_, rfl⟩, ⟨_, rfl⟩, _, rfl⟩

theorem witness_IdleDispatchDoesNothing : cmdPending (unit 0x7FFF 1 2).cmd = false := by decide

theorem witness_DispatchRoutesByCode :
    (unit 0xC005 7 42).cfg.wf = true ∧ cmdPending (unit 0xC005 7 42).cmd = true ∧
    cmdCode (unit 0xC005 7 42).cmd = (unit 0xC005 7 42).cfg.code .test := by decide

theorem witness_DispatchRoutesByCode_fallback :
    (unit 0x8006 7 42).cfg.wf = true ∧ cmdPending (unit 0x8006 7 42).cmd = true ∧
    ∀ x, cmdCode (unit 0x8006 7 42).cmd ≠ (unit 0x8006 7 42).cfg.code x :=
  ⟨by decide, by decide, fun x => by cases x <;> decide⟩

theorem witness_DispatchAlwaysClearsPending :
    ∃ t, exec (.pollCycle (some (.wrHold 0 1 [0xFFFF]))) (unit 0 0 0) = .next t := ⟨_, rfl⟩

theorem witness_SecondDispatchDoesNothing :
    ∃ t, exec .dispatch (unit 0x8001 13 1) = .next t := ⟨_, rfl⟩

theorem witness_WrittenErrorBitIsIgnored :
    (unit 0xC005 7 42).Sized ∧ cmdPending (unit 0xC005 7 42).cmd = true :=
  ⟨unit_sized _ _ _, by decide⟩

theorem witness_DispatchFrame : ∃ t, exec .dispatch (other 0x8004 100 0) = .next t := ⟨_, rfl⟩

/-- Of O25 and O26: a dispatch that ends with `E` = 1. -/
theorem witness_ErrorFlagTellsErrorCode :
    (unit 0x8001 12 1).Sized ∧ cmdPending (unit 0x8001 12 1).cmd = true ∧
    ∃ t, exec .dispatch (unit 0x8001 12 1) = .next t ∧ cmdError t.cmd = true :=
  ⟨unit_sized _ _ _, by decide, _, rfl, by decide⟩

/-- One that ends with `E` = 0 although it was written as 1. -/
theorem witness_ErrorFlagTellsErrorCode_success :
    (unit 0xC001 13 1).Sized ∧ cmdPending (unit 0xC001 13 1).cmd = true ∧
    ∃ t, exec .dispatch (unit 0xC001 13 1) = .next t ∧ cmdError t.cmd = false :=
  ⟨unit_sized _ _ _, by decide, _, rfl, by decide⟩

theorem witness_FailedCommandHasNoSideEffect :
    (other 0x8002 0 1).Sized ∧ cmdPending (other 0x8002 0 1).cmd = true ∧
    ∃ t, exec .dispatch (other 0x8002 0 1) = .next t ∧ cmdError t.cmd = true :=
  ⟨other_sized _ _ _, by decide, _, rfl, by decide⟩

theorem witness_CodeFieldKeptByDispatch :
    (unit 0x8123 7 42).cfg.errcodeInCmd = false ∧ ∃ t, exec .dispatch (unit 0x8123 7 42) = .next t :=
  ⟨by decide, _, rfl⟩

/-- Two blocks that differ in `H[3]` and in the time. -/
theorem witness_CommandDependsOnlyOnItsOperands :
    let s := unit 0x8002 7 5
    let u := unitOf Config.reference [0x8002, 7, 5, 9, 9, 9, 9, 9] 77
    s.Sized ∧ u.Sized ∧ u.cfg = s.cfg ∧ (∀ i, i < 3 → u.H i = s.H i) ∧ u.levels = s.levels ∧
    u.draws = s.draws ∧ (∃ t, exec .dispatch s = .next t) ∧ ∃ v, exec .dispatch u = .next v :=
  ⟨unit_sized _ _ _, ⟨test_wf_reference, rfl⟩, rfl, by decide, rfl, rfl, ⟨_, rfl⟩, _, rfl⟩

/-- S10: the write that sets `P`. -/
theorem witness_WhoSetsAndClearsPending_set :
    cmdPending (unit 0 0 0).cmd = false ∧
    ∃ t, exec (.wrHold 0 1 [0x8005]) (unit 0 0 0) = .next t ∧ cmdPending t.cmd = true :=
  ⟨by decide, _, rfl, by decide⟩

/-- D14: the write that clears `P`; and a dispatch that does. -/
theorem witness_WhoSetsAndClearsPending_clear :
    cmdPending (unit 0x8001 13 1).cmd = true ∧
    (∃ t, exec (.wrHold 0 1 [0x0001]) (unit 0x8001 13 1) = .next t ∧ cmdPending t.cmd = false) ∧
    ∃ t, exec .dispatch (unit 0x8001 13 1) = .next t ∧ cmdPending t.cmd = false :=
  ⟨by decide, ⟨_, rfl, by decide⟩, _, rfl, by decide⟩

/-- D13, with the second write of the whole block. -/
theorem witness_OverwrittenCommandNeverRuns :
    (unit 0 0 0).Sized ∧ (0x8001 :: [13, 1] : List Word).length = (3#16).toNat ∧
    (0x8005 :: [9, 9, 0, 0, 0, 0, 0] : List Word).length = (8#16).toNat ∧
    (3#16).toNat ≤ (unit 0 0 0).cfg.n ∧ (8#16).toNat ≤ (unit 0 0 0).cfg.n :=
  ⟨unit_sized _ _ _, by decide⟩

/-- Of the clauses of O31 to O36 that say when a `DISPATCH` runs the command. -/
theorem witness_Selected :
    Selected (unit 0x8001 13 1) .setPin ∧ Selected (unit 0xC002 7 0) .getPin ∧
    Selected (unit 0x8003 250 0) .delay ∧ Selected (unit 0x8004 100 0) .delayX ∧
    Selected (unit 0x8005 7 42) .test := by
  unfold Selected
  decide

theorem witness_Unmapped : Unmapped (unit 0x8000 7 42) :=
  ⟨by decide, fun x => by cases x <;> decide⟩

/-- P1, P4. -/
theorem witness_SetPinEffect :
    (unit 0x8001 13 1).Sized ∧ (unit 0x8001 13 1).H 1 ∈ (unit 0x8001 13 1).cfg.setPinAllowed ∧
    (unit 0x8001 12 1).Sized ∧ (unit 0x8001 12 1).H 1 ∉ (unit 0x8001 12 1).cfg.setPinAllowed :=
  ⟨unit_sized _ _ _, by decide, unit_sized _ _ _, by decide⟩

/-- G1, G3. -/
theorem witness_GetPinEffect :
    (unit 0x8002 7 0x1234).Sized ∧
    (unit 0x8002 7 0x1234).H 1 ∉ (unit 0x8002 7 0x1234).cfg.getPinDisallowed ∧
    (unit 0x8002 0 0x1234).Sized ∧
    (unit 0x8002 0 0x1234).H 1 ∈ (unit 0x8002 0 0x1234).cfg.getPinDisallowed :=
  ⟨unit_sized _ _ _, by decide, unit_sized _ _ _, by decide⟩

/-- L1, L5. Of O34 and O35 too, whose only hypothesis is the size. -/
theorem witness_DelayEffect :
    (unit 0x8003 250 0).Sized ∧ (unit 0x8003 250 0).cfg.delayRxPolicy = .buffer ∧
    (other 0x8003 250 0).Sized ∧ (other 0x8003 250 0).cfg.delayRxPolicy = .drop :=
  ⟨unit_sized _ _ _, rfl, other_sized _ _ _, rfl⟩

/-- X1. -/
theorem witness_DelayExclusiveEffect : (unit 0x8004 100 0).Sized := unit_sized _ _ _

/-- T2. -/
theorem witness_TestEffect : (unit 0x8005 0xFFFF 0xFFFE).Sized := unit_sized _ _ _

theorem witness_IllegalCommandEffect :
    (other 0x8123 7 42).Sized ∧ (other 0x8123 7 42).cfg.errcodeInCmd = true :=
  ⟨other_sized _ _ _, rfl⟩

theorem witness_PinConfigurationFollowsCommands_setPin :
    let s := { unit 0x8001 13 1 with trace := [.dirConfig 13 .inputPullup, .levelRead 13 0] }
    s.Sized ∧ s.H 1 ∈ s.cfg.setPinAllowed ∧ (∃ t, exec .setPin s = .next t) ∧ (7 : Word) ≠ s.H 1 :=
  ⟨unit_sized 0x8001 13 1, by decide, ⟨_, rfl⟩, by decide⟩

theorem witness_PinConfigurationFollowsCommands_getPin :
    let s := { unit 0x8002 13 0 with trace := [.levelWrite 13 1, .dirConfig 13 .output] }
    s.Sized ∧ s.H 1 ∉ s.cfg.getPinDisallowed ∧ (∃ t, exec .getPin s = .next t) ∧ (7 : Word) ≠ s.H 1 :=
  ⟨unit_sized 0x8002 13 0, by decide, ⟨_, rfl⟩, by decide⟩

theorem witness_PinConfigurationFollowsCommands_failed :
    (LeavesPins (unit 0x8001 12 1) .setPin ∧ ∃ t, exec .setPin (unit 0x8001 12 1) = .next t) ∧
    LeavesPins (unit 0x8002 0 1) .getPin ∧ ∃ t, exec .getPin (unit 0x8002 0 1) = .next t :=
  ⟨⟨show (unit 0x8001 12 1).H 1 ∉ (unit 0x8001 12 1).cfg.setPinAllowed by decide, _, rfl⟩,
    show (unit 0x8002 0 1).H 1 ∈ (unit 0x8002 0 1).cfg.getPinDisallowed by decide, _, rfl⟩

theorem witness_PinConfigurationFollowsCommands_others :
    (LeavesPins (unit 0 0 0) (.illCmd 0x123) ∧ ∃ t, exec (.illCmd 0x123) (unit 0 0 0) = .next t) ∧
    LeavesPins (unit 0 0 0) (.wrHold 0 1 [0x8001]) ∧
      ∃ t, exec (.wrHold 0 1 [0x8001]) (unit 0 0 0) = .next t :=
  ⟨⟨trivial, _, rfl⟩, trivial, _, rfl⟩

/-- A `DISPATCH` of a SetPin that fails: the first of the two conditions is met on a selected command. -/
theorem witness_PinConfigurationFollowsCommands_dispatch :
    Selected (unit 0x8001 12 1) .setPin ∧ LeavesPins (unit 0x8001 12 1) .dispatch ∧
    ∃ t, exec .dispatch (unit 0x8001 12 1) = .next t := by
  unfold LeavesPins Selected
  exact ⟨by decide, by decide, _, rfl⟩

theorem witness_EveryOperationEmitsWholeSequences :
    (unit 0 0 0).xport ≠ .suspended ∧
    ∃ t, exec (.call .delayX [9] 2) (unit 0 0 0) = .next t := ⟨by decide, _, rfl⟩

theorem witness_PollCycleIsRequestThenDispatch :
    (∃ t, exec (busInstr (.wrHold 0 1 [0x8005])) (unit 0 0 0) = .next t) ∧
    ∃ r, exec (busInstr (.wrHold 0 2 [0x8005])) (unit 0 0 0) = .refused r := ⟨⟨_, rfl⟩, _, rfl⟩

theorem witness_PollCycleRunsSubmittedCommand :
    (unit 0 0 0).Sized ∧ ([13, 1, 0, 0, 0, 0, 0] : List Word).length + 1 = (8#16).toNat ∧
    (8#16).toNat ≤ (unit 0 0 0).cfg.n := ⟨unit_sized _ _ _, by decide⟩

theorem witness_CallIsTwoPollCycles :
    ([] : List Word).length + 1 ≤ 65535 ∧ (List.replicate 65534 (0 : Word)).length + 1 ≤ 65535 := by
  rw [List.length_replicate]
  decide

theorem witness_ClearErrorEffect : (unit 0x4123 0xFFFF 6).Sized := unit_sized _ _ _

theorem witness_EndToEndTestCommand : (unit 0 0 0).Sized ∧ (other 0x4001 0xFFFE 1).Sized :=
  ⟨unit_sized _ _ _, other_sized _ _ _⟩

theorem witness_EveryWellFormedOperationCompletes :
    Instr.wf (unit 0 0 0).cfg (.illCmd 0) = true ∧ Instr.wf (unit 0 0 0).cfg (.wrHold 0 1 [7]) = true ∧
    Instr.wf (unit 0 0 0).cfg (.call .test [] 65535) = true := by decide

/-- The last register of the file. -/
theorem witness_ResetZeroesRegisters : 7 < Config.reference.n := by decide

/-- Of O46: a script that boot must leave as it is. -/
theorem witness_BootOpensTransport :
    { State.reset with script := [.op .strobe] }.boot = .created ∧
    { State.reset with boot := .registered, script := [.op .strobe] }.boot = .registered := ⟨rfl, rfl⟩

theorem witness_InvariantAtReset : Config.reference.wf = true ∧ otherConfig.wf = true := by decide

/-- A running block with something in every field that the invariant speaks of, and a step it takes. -/
def lively : State :=
  { other 0x8002 7 0 with
    trace := [.levelWrite 13 1, .dirConfig 13 .output, .xportSuspend, .wait 5, .xportResume 19200]
    levels := [(7, 1), (9, 0)]
    script := [.op .strobe, .op (.poll none)] }

theorem witness_StepKeepsInvariant : lively.Inv ∧ ∃ t, step lively = .next t :=
  ⟨⟨other_sized 0x8002 7 0, by decide, by decide, by decide⟩, _, rfl⟩

theorem witness_CanonicalScheduleNeverFindsPending :
    let s := { other 0 0 0 with
      script := [.op (.poll (some ⟨1, 0, 2, [0x8005, 7]⟩)), .tick 5, .level 7 1, .op .strobe] }
    s.cfg.schedule = .canonical ∧ s.scriptAdmitted = true ∧ cmdPending s.cmd = false ∧
    ∃ t, step s = .next t := ⟨by decide, by decide, by decide, _, rfl⟩

/-- Of O50 to O52: a step that writes registers, emits events and uses up an input. -/
theorem witness_ConfigurationIsFixed : ∃ t, step lively = .next t := ⟨_, rfl⟩

theorem witness_TraceOnlyGrows :
    ∃ t, step { lively with script := [.op (.call .delay [9] 2)] } = .next t := ⟨_, rfl⟩

theorem witness_TimeNeverDecreases :
    (∃ t, step { lively with script := [] } = .next t) ∧
    { lively with script := [.tick 5] }.boot = .running ∧
    { lively with script := [.tick 5] }.script = .tick 5 :: [] := ⟨⟨_, rfl⟩, rfl, rfl⟩

theorem witness_StepRunsPresentedOperation :
    lively.boot = .running ∧ lively.script = .op .strobe :: [.op (.poll none)] ∧
    decodePort .strobe = .ok .dispatch ∧
    ∃ u, exec .dispatch { lively with script := [.op (.poll none)] } = .next u :=
  ⟨rfl, rfl, rfl, _, rfl⟩

/-- The data of a write one word short (R67). -/
theorem witness_StepRunsPresentedOperation_rejected :
    { lively with script := [.op (.bus ⟨1, 0, 2, [7]⟩)] }.boot = .running ∧
    { lively with script := [.op (.bus ⟨1, 0, 2, [7]⟩)] }.script = .op (.bus ⟨1, 0, 2, [7]⟩) :: [] ∧
    decodePort (.bus ⟨1, 0, 2, [7]⟩) = .error .dataLength := ⟨rfl, rfl, rfl⟩

theorem witness_StepRunsPresentedOperation_empty :
    { lively with script := [] }.boot = .running ∧ { lively with script := [] }.script = [] ∧
    ∃ u, exec .dispatch { lively with script := [] } = .next u := ⟨rfl, rfl, _, rfl⟩

theorem witness_PlacedCommandWordRuns : State.reset.Sized := ⟨test_wf_reference, rfl⟩

theorem witness_LevelDirectiveFixesNextAnswer :
    { lively with script := [.level 7 0, .op .strobe] }.boot = .running ∧
    { lively with script := [.level 7 0, .op .strobe] }.script = .level 7 0 :: [.op .strobe] :=
  ⟨rfl, rfl⟩

/-- G1: the answer that the environment has fixed. -/
theorem witness_LevelDirectiveFixesNextAnswer_read :
    let s := { unit 0x8002 7 0x1234 with levels := [(7, 1), (9, 0)] }
    s.Sized ∧ s.H 1 ∉ s.cfg.getPinDisallowed ∧ s.levels.lookup (s.H 1) = some 1 :=
  ⟨unit_sized 0x8002 7 0x1234, by decide, by decide⟩

end Sys2Proof.Tests
end

namespace Sys2Proof.Machine

open Sys2Proof

/-! ### The reset state (R43) -/

@[simp] theorem resetWith_regs (c : Config) :
    (State.resetWith c).regs = List.replicate c.n 0 := rfl

/-- Every register number reads 0: one of the file is 0 at reset, one past it reads 0 by definition. -/
theorem resetWith_H (c : Config) (i : Nat) : (State.resetWith c).H i = 0 :=
  List.getElem?_getD_replicate_default_eq 0 c.n i

@[simp] theorem resetWith_cmd (c : Config) : (State.resetWith c).cmd = 0 := resetWith_H c 0

theorem dispatcher_idle_of_not_pending {s : State} (h : cmdPending s.cmd = false) :
    s.dispatcher = .idle := by
  simp [State.dispatcher, h]

/-- Settles O45: the file is `N` zeros, so the command word is 0, and each of its fields is the one of 0. -/
theorem resetZeroesRegisters : Obligations.ResetZeroesRegisters := by
  intro c
  have hpending : cmdPending (State.resetWith c).cmd = false := by
    rw [resetWith_cmd]; rfl
  refine ⟨by simp, fun i hi => by simp [hi], resetWith_cmd c, hpending, ?_, ?_,
    dispatcher_idle_of_not_pending hpending⟩
  · rw [resetWith_cmd]; rfl
  · rw [resetWith_cmd]; rfl

/-! ### The configuration (R41) -/

/-- A directive of the script does not write the configuration, and an operation keeps it (`exec_advance`). -/
theorem stepRunning_cfg {s t : State} (h : stepRunning s = .next t) : t.cfg = s.cfg := by
  obtain ⟨-, u, hu, rfl⟩ | ⟨d, rest, -, rfl⟩ | ⟨p, v, rest, -, rfl⟩ | ⟨p, rest, i, u, -, -, hu, rfl⟩ :=
    stepRunning_cases h
  · exact (exec_advance hu).cfg
  · rfl
  · rfl
  · exact (exec_advance hu).cfg

/-- Settles O50: neither a stage of the boot sequence nor a step of the loop changes the configuration. -/
theorem configurationIsFixed : Obligations.ConfigurationIsFixed := by
  intro s t h
  obtain ⟨-, rfl⟩ | ⟨-, rfl⟩ | ⟨-, hrun⟩ := step_cases h
  · exact bootRegister_cfg s
  · exact bootOpen_cfg s
  · exact stepRunning_cfg hrun

end Sys2Proof.Machine

namespace Sys2Proof.Machine

open Sys2Proof

/-! ### Bus access to the holding registers (40_bus_access.md) -/

/-- The model's check and the range of R64 in words are the same, under either policy. -/
theorem validHold_iff_holdRange {c : Config} {addr len : Word} :
    validHold c addr.toNat len.toNat = true ↔ HoldRange c addr len := by
  unfold validHold HoldRange
  cases c.addrPolicy <;> simp

theorem HoldRange.le {c : Config} {addr len : Word} (h : HoldRange c addr len) :
    addr.toNat + len.toNat ≤ c.n :=
  validHold_le (validHold_iff_holdRange.mpr h)

theorem raiseAddressError_eq (s : State) : raiseAddressError s = afterAddressError s := rfl

theorem exec_rdHold (addr len : Word) (s : State) :
    exec (.rdHold addr len) s = execRdHold addr len s := rfl

theorem exec_wrHold (addr len : Word) (vs : List Word) (s : State) :
    exec (.wrHold addr len vs) s = execWrHold addr len vs s := rfl

theorem exec_rdHold_of_holdRange {s : State} {addr len : Word} (h : HoldRange s.cfg addr len) :
    exec (.rdHold addr len) s =
      .next (s.respond ⟨.ok, some (memRead s .hold addr.toNat len.toNat)⟩) := by
  rw [exec_rdHold, execRdHold, if_pos (validHold_iff_holdRange.mpr h)]

theorem exec_rdHold_of_not_holdRange {s : State} {addr len : Word}
    (h : ¬ HoldRange s.cfg addr len) :
    exec (.rdHold addr len) s = .next (afterAddressError s) := by
  rw [exec_rdHold, execRdHold, if_neg (mt validHold_iff_holdRange.mp h), raiseAddressError_eq]

theorem exec_wrHold_of_holdRange {s : State} {addr len : Word} {vs : List Word}
    (hvs : vs.length = len.toNat) (h : HoldRange s.cfg addr len) :
    exec (.wrHold addr len vs) s = .next ((memWrite s addr.toNat vs).respond ⟨.ok, none⟩) := by
  rw [exec_wrHold, execWrHold, if_pos ((dataLengthOk_iff len vs).mpr hvs),
    if_pos (validHold_iff_holdRange.mpr h)]

theorem exec_wrHold_of_not_holdRange {s : State} {addr len : Word} {vs : List Word}
    (hvs : vs.length = len.toNat) (h : ¬ HoldRange s.cfg addr len) :
    exec (.wrHold addr len vs) s = .next (afterAddressError s) := by
  rw [exec_wrHold, execWrHold, if_pos ((dataLengthOk_iff len vs).mpr hvs),
    if_neg (mt validHold_iff_holdRange.mp h), raiseAddressError_eq]

theorem decodePort_rdHold (addr len : Word) :
    decodePort (.bus ⟨0, addr, len, []⟩) = .ok (.rdHold addr len) := rfl

/-- A request of kind 1 is `WR_HOLD` when its data has the announced length (R67, R94). -/
theorem decodePort_wrHold {addr len : Word} {vs : List Word} (hvs : vs.length = len.toNat) :
    decodePort (.bus ⟨1, addr, len, vs⟩) = .ok (.wrHold addr len vs) := by
  simp [decodePort, decodeBus, (dataLengthOk_iff len vs).mpr hvs, busInstr]

/-- Inside the file a block read answers the registers (R66). -/
theorem memRead_hold_getElem?_H {s : State} {a n i : Nat} (h : a + n ≤ s.regs.length) (hi : i < n) :
    (memRead s .hold a n)[i]? = some (s.H (a + i)) := by
  rw [memRead_hold_getElem? s a n i hi, regs_getElem?_H s (a + i) (by omega)]

theorem memWrite_H_inside {s : State} {a i : Nat} {vs : List Word}
    (h : a + vs.length ≤ s.regs.length) (hi : i < vs.length) :
    some ((memWrite s a vs).H (a + i)) = vs[i]? := by
  rw [memWrite_H s a (a + i) vs h, if_pos (by omega), Nat.add_sub_cancel_left]
  simp [hi]

theorem memWrite_H_outside {s : State} {a j : Nat} {vs : List Word}
    (h : a + vs.length ≤ s.regs.length) (hj : j < a ∨ a + vs.length ≤ j) :
    (memWrite s a vs).H j = s.H j := by
  rw [memWrite_H s a j vs h, if_neg (by omega)]

/-- The command word after a write that covers address 0 is the first word written (R122). -/
theorem memWrite_cmd_of_zero {s : State} {v : Word} {rest : List Word}
    (h : (v :: rest).length ≤ s.regs.length) : (memWrite s 0 (v :: rest)).cmd = v := by
  rw [cmd_eq_H, memWrite_H s 0 0 (v :: rest) (by omega), if_pos (by simp)]
  rfl

@[simp] theorem respond_H (s : State) (r : BusRsp) (i : Nat) : (s.respond r).H i = s.H i := rfl

@[simp] theorem respond_cmd (s : State) (r : BusRsp) : (s.respond r).cmd = s.cmd := rfl

/-- Settles O6: a range that `ValidHold` admits lies in the file, so the words read are the registers. -/
theorem readHoldingRegisters : Obligations.ReadHoldingRegisters := by
  rintro s addr len ⟨-, hlength⟩
  refine ⟨decodePort_rdHold addr len, fun hrange => ?_, exec_rdHold_of_not_holdRange⟩
  have hfile : addr.toNat + len.toNat ≤ s.regs.length := hlength ▸ hrange.le
  exact ⟨memRead s .hold addr.toNat len.toNat, exec_rdHold_of_holdRange hrange,
    memRead_hold_length s _ _ hfile, fun i hi => memRead_hold_getElem?_H hfile hi⟩

/-- Settles O7: the state after an admitted write is the block write and the response, and the flags are those of the
word that the write leaves at address 0. -/
theorem writeHoldingRegisters : Obligations.WriteHoldingRegisters := by
  rintro s addr len vs ⟨-, hlength⟩ hvs
  refine ⟨decodePort_wrHold hvs, fun hrange => ?_, exec_wrHold_of_not_holdRange hvs⟩
  have hfile : addr.toNat + vs.length ≤ s.regs.length := by
    rw [hvs, hlength]
    exact hrange.le
  refine ⟨_, exec_wrHold_of_holdRange hvs hrange, rfl, writeWords_length vs s.regs addr.toNat,
    fun i hi => ?_, fun j hj => ?_, fun v rest haddr hfirst => ?_⟩
  · rw [respond_H]
    exact memWrite_H_inside hfile (hvs ▸ hi)
  · rw [respond_H]
    exact memWrite_H_outside hfile (hvs ▸ hj)
  · subst hfirst
    have hcmd : (memWrite s addr.toNat (v :: rest)).cmd = v := by
      rw [haddr]
      exact memWrite_cmd_of_zero (by omega)
    rw [respond_cmd, hcmd]
    exact ⟨rfl, rfl⟩

end Sys2Proof.Machine

namespace Sys2Proof.Machine

open Sys2Proof

/-! ### What a `DISPATCH` selects (41_dispatch.md) -/

theorem exec_dispatch (s : State) : exec .dispatch s = execDispatch s := rfl

theorem exec_dispatch_of_not_pending {s : State} (h : cmdPending s.cmd = false) :
    exec .dispatch s = .next s := by
  rw [exec_dispatch, execDispatch, if_neg (by simp [h])]
  rfl

theorem exec_dispatch_of_route_some {s : State} {x : Cmd} (hpending : cmdPending s.cmd = true)
    (hroute : route s.cfg (cmdCode s.cmd) = some x) :
    exec .dispatch s = exec (cmdInstr x) s := by
  rw [exec_dispatch, execDispatch, if_pos hpending, hroute]
  cases x <;> rfl

theorem exec_dispatch_of_route_none {s : State} (hpending : cmdPending s.cmd = true)
    (hroute : route s.cfg (cmdCode s.cmd) = none) (k : BitVec 14) :
    exec .dispatch s = exec (.illCmd k) s := by
  rw [exec_dispatch, execDispatch, if_pos hpending, hroute]
  rfl

theorem route_eq_none_of_forall_ne {c : Config} {k : BitVec 14} (h : ∀ x, k ≠ c.code x) :
    route c k = none := by
  cases hroute : route c k with
  | none => rfl
  | some x => exact absurd (route_eq_some hroute) (h x)

/-- The encoding line of a command's rule selects that command (R142). -/
theorem Selected.exec_dispatch {s : State} {x : Cmd} (hwf : s.cfg.wf = true) (h : Selected s x) :
    exec .dispatch s = exec (cmdInstr x) s := by
  obtain ⟨hpending, hcode⟩ := h
  exact exec_dispatch_of_route_some hpending (hcode ▸ route_code hwf x)

/-- An unmapped code selects the fallback, which does not look at the code (R144). -/
theorem Unmapped.exec_dispatch {s : State} (h : Unmapped s) (k : BitVec 14) :
    exec .dispatch s = exec (.illCmd k) s := by
  obtain ⟨hpending, hcode⟩ := h
  exact exec_dispatch_of_route_none hpending (route_eq_none_of_forall_ne hcode) k

/-- Settles O18: the five codes differ, so the code of a command is routed to it alone, and a code that is none of
them to the fallback. -/
theorem dispatchRoutesByCode : Obligations.DispatchRoutesByCode := by
  intro s hwf hpending
  exact ⟨fun x hcode => Selected.exec_dispatch hwf ⟨hpending, hcode⟩,
    fun hcode => Unmapped.exec_dispatch ⟨hpending, hcode⟩ _⟩

/-- Settles O17: an idle dispatch is `NOCMD`, which answers the state it is given. -/
theorem idleDispatchDoesNothing : Obligations.IdleDispatchDoesNothing :=
  fun _ => ⟨exec_dispatch_of_not_pending, fun _ => rfl⟩

/-! ### A `DISPATCH` ends with `P` = 0 (R145) -/

/-- The handler that a command's operation runs (R161, R165, R168, R172, R176). -/
def cmdHandler : Cmd → State → HandlerOutcome × State
  | .setPin => setPinHandler
  | .getPin => getPinHandler
  | .delay => delayHandler
  | .delayX => delayXHandler
  | .test => testHandler

theorem exec_cmdInstr (x : Cmd) (s : State) :
    exec (cmdInstr x) s = runHandler (cmdHandler x) s := by
  cases x <;> rfl

theorem exec_illCmd (k : BitVec 14) (s : State) :
    exec (.illCmd k) s = runHandler illCmdHandler s := rfl

/-- A pending `DISPATCH` runs one handler, then completion (R142). -/
theorem exec_dispatch_runs_handler {s : State} (hpending : cmdPending s.cmd = true) :
    ∃ h, exec .dispatch s = runHandler h s := by
  cases hroute : route s.cfg (cmdCode s.cmd) with
  | some x =>
    exact ⟨cmdHandler x, (exec_dispatch_of_route_some hpending hroute).trans (exec_cmdInstr x s)⟩
  | none => exact ⟨illCmdHandler, exec_dispatch_of_route_none hpending hroute 0⟩

/-- Pending, it ends in completion, which clears `P`; idle, it leaves the clear `P` as it is. -/
theorem exec_dispatch_completes (s : State) :
    ∃ t, exec .dispatch s = .next t ∧ cmdPending t.cmd = false := by
  cases hpending : cmdPending s.cmd with
  | true =>
    obtain ⟨h, hrun⟩ := exec_dispatch_runs_handler hpending
    exact ⟨_, hrun, complete_not_pending _ _⟩
  | false => exact ⟨s, exec_dispatch_of_not_pending hpending, hpending⟩

theorem exec_dispatch_not_pending {s t : State} (h : exec .dispatch s = .next t) :
    cmdPending t.cmd = false := by
  obtain ⟨u, hu, hclear⟩ := exec_dispatch_completes s
  obtain rfl : u = t := by simpa [hu] using h
  exact hclear

/-- The last thing a poll cycle does is a `DISPATCH` (R150). -/
theorem exec_pollCycle_ends_with_dispatch {op : Option BusOp} {s t : State}
    (h : exec (.pollCycle op) s = .next t) : ∃ u, exec .dispatch u = .next t := by
  cases op with
  | none => exact ⟨s, h⟩
  | some b =>
    obtain ⟨u, -, hdispatch⟩ := andThen_eq_next.mp h
    exact ⟨u, hdispatch⟩

/-- Settles O20: a `DISPATCH` completes with `P` = 0 from every state, and a poll cycle ends with one. -/
theorem dispatchAlwaysClearsPending : Obligations.DispatchAlwaysClearsPending := by
  refine ⟨exec_dispatch_completes, fun op s t h => ?_⟩
  obtain ⟨u, hu⟩ := exec_pollCycle_ends_with_dispatch h
  exact exec_dispatch_not_pending hu

/-! ### What a failure leaves (R143, R203) -/

/-- `E` set and `P` cleared: bits 13:0 are kept. -/
theorem clearPending_setError (w : Word) :
    clearPending (setError w) = 0x4000#16 ||| (w &&& 0x3FFF#16) := by
  unfold clearPending setError
  ext i hi
  interval_cases i <;> simp

/-- The same with the code field written: bits 13:0 are the new code, and nothing of `w` is left (R13). -/
theorem clearPending_setCode_setError (w : Word) (k : BitVec 14) :
    clearPending (setCode (setError w) k) = 0x4000#16 ||| k.setWidth 16 := by
  unfold clearPending setCode setError
  ext i hi
  interval_cases i <;> simp

theorem errLow_setWidth (ec : ErrCode) :
    (errLow ec).setWidth 16 = errPattern ec &&& 0x3FFF#16 := by
  cases ec <;> rfl

/-- The command word that completion computes is the one the statements write. -/
theorem completedCmd_failure (c : Config) (ec : ErrCode) (w : Word) :
    completedCmd c (.failure ec) w = cmdAfterFailure c (errPattern ec) w := by
  unfold completedCmd cmdAfterFailure
  cases c.errcodeInCmd with
  | true => simp [clearPending_setCode_setError, errLow_setWidth]
  | false => simp [clearPending_setError]

theorem complete_failure {s : State} (ec : ErrCode) (h : 1 < s.regs.length) :
    complete (.failure ec) s = afterFailure s (errPattern ec) := by
  rw [complete_eq _ s h, completedCmd_failure]
  rfl

theorem errPattern_illegalCmd : errPattern .illegalCmd = 0xFFFF#16 := rfl

theorem exec_illCmd_eq_afterFailure {s : State} (k : BitVec 14) (h : 1 < s.regs.length) :
    exec (.illCmd k) s = .next (afterFailure s 0xFFFF#16) := by
  rw [exec_illCmd, runHandler, illCmdHandler, complete_failure _ h, errPattern_illegalCmd]

/-- With the error code in the command word, bits 13:0 are those of the pattern and the old word does not count. -/
theorem cmdAfterFailure_errcodeInCmd {c : Config} (h : c.errcodeInCmd = true) (ec w : Word) :
    cmdAfterFailure c ec w = 0x4000#16 ||| (ec &&& 0x3FFF#16) := by
  rw [cmdAfterFailure, if_pos h]

/-- Settles O36: a sized file has the two registers that a failure writes, and the fallback fails without doing
anything else. -/
theorem illegalCommandEffect : Obligations.IllegalCommandEffect := by
  intro s k hsized
  have hfail : exec (.illCmd k) s = .next (afterFailure s 0xFFFF#16) :=
    exec_illCmd_eq_afterFailure k (by have := hsized.three_le; omega)
  exact ⟨fun hunmapped => (hunmapped.exec_dispatch k).trans hfail, hfail,
    fun herrcode => (cmdAfterFailure_errcodeInCmd herrcode _ _).trans (by decide)⟩

end Sys2Proof.Machine

namespace Sys2Proof.Machine

open Sys2Proof

/-! ### What a success leaves (R143) -/

/-- `E` and `P` cleared: bits 13:0 are kept. -/
theorem clearPending_clearError (w : Word) : clearPending (clearError w) = cmdAfterSuccess w := by
  rw [clearPending, clearError, BitVec.and_assoc]
  rfl

theorem complete_success {s : State} (h : 1 < s.regs.length) :
    complete .success s = { s with regs := s.regs.set 0 (cmdAfterSuccess s.cmd) } := by
  rw [complete_eq _ s h, completedCmd, clearPending_clearError]

/-- A command whose handler succeeds and writes no register changes no register but `CMD`, and does beside that what
its handler does. -/
theorem exec_cmdInstr_of_success {s : State} {x : Cmd} (hsized : s.Sized)
    (hsuccess : (cmdHandler x s).1 = .success) (hregs : (cmdHandler x s).2.regs = s.regs) :
    exec (cmdInstr x) s =
      .next { (cmdHandler x s).2 with regs := s.regs.set 0 (cmdAfterSuccess s.cmd) } := by
  have hfile : 1 < (cmdHandler x s).2.regs.length := by
    have := hsized.three_le
    rw [hregs]
    omega
  have hcmd : (cmdHandler x s).2.cmd = s.cmd := H_congr hregs 0
  rw [exec_cmdInstr, runHandler, hsuccess, complete_success hfile, hregs, hcmd]

/-! ### The two delays and the no-operation (R168, R172, R176) -/

theorem delayHandler_of_buffer {s : State} (h : s.cfg.delayRxPolicy = .buffer) :
    delayHandler s = (.success, emitWait (s.H 1) s) := by
  rw [delayHandler, h]
  rfl

theorem delayHandler_of_drop {s : State} (h : s.cfg.delayRxPolicy = .drop) :
    delayHandler s = delayXHandler s := by
  rw [delayHandler, h]

/-- Under `BUFFER` a Delay is one wait (R168). -/
theorem exec_delay_of_buffer {s : State} (hsized : s.Sized)
    (hbuffer : s.cfg.delayRxPolicy = .buffer) :
    exec .delay s =
      .next { emitWait (s.H 1) s with regs := s.regs.set 0 (cmdAfterSuccess s.cmd) } := by
  have hhandler : cmdHandler .delay s = (.success, emitWait (s.H 1) s) := delayHandler_of_buffer hbuffer
  have hexec := exec_cmdInstr_of_success (x := .delay) hsized (by rw [hhandler])
    (by rw [hhandler, emitWait_regs])
  rwa [hhandler] at hexec

/-- Under `DROP` a Delay is a DelayExclusive (R8). -/
theorem exec_delay_of_drop {s : State} (hdrop : s.cfg.delayRxPolicy = .drop) :
    exec .delay s = exec .delayX s := by
  have hdelay : exec .delay s = runHandler delayHandler s := exec_cmdInstr .delay s
  have hdelayX : exec .delayX s = runHandler delayXHandler s := exec_cmdInstr .delayX s
  rw [hdelay, hdelayX, runHandler, runHandler, delayHandler_of_drop hdrop]

/-- A DelayExclusive is a wait between a suspend and a resume (R172). -/
theorem exec_delayX_eq {s : State} (hsized : s.Sized) :
    exec .delayX s = .next { emitResume (emitWait (s.H 1) (emitSuspend s)) with
      regs := s.regs.set 0 (cmdAfterSuccess s.cmd) } :=
  exec_cmdInstr_of_success (x := .delayX) hsized rfl rfl

/-- The time that a wait lets pass is at least the one it names (R169). -/
theorem le_emitWait_nowMs (ms : Word) (s : State) :
    s.nowMs + ms.toNat ≤ (emitWait ms s).nowMs := by
  rw [emitWait_nowMs]
  exact Nat.le_add_right _ _

/-- Suspend, wait and resume append their events in this order (R172). -/
theorem emitResume_emitWait_emitSuspend_trace (ms : Word) (s : State) :
    (emitResume (emitWait ms (emitSuspend s))).trace =
      s.trace ++ [.xportSuspend, .wait ms, .xportResume s.cfg.baud] := by
  simp

/-- Settles O33: the wait is the only thing a buffered Delay does beside completion; under `DROP` its handler is
DelayExclusive's. -/
theorem delayEffect : Obligations.DelayEffect := by
  intro s hsized
  exact ⟨fun hselected => hselected.exec_dispatch hsized.1,
    fun hbuffer => ⟨_, exec_delay_of_buffer hsized hbuffer, le_emitWait_nowMs (s.H 1) s, rfl⟩,
    exec_delay_of_drop⟩

/-- Settles O34: the wait stands between the suspend, which passes no time, and the resume, which opens the transport
again. -/
theorem delayExclusiveEffect : Obligations.DelayExclusiveEffect := by
  intro s hsized
  refine ⟨fun hselected => hselected.exec_dispatch hsized.1, _, exec_delayX_eq hsized,
    le_emitWait_nowMs (s.H 1) (emitSuspend s), ?_⟩
  rw [← emitResume_emitWait_emitSuspend_trace]
  rfl

/-- Settles O35: the handler of `TEST` answers the state it is given, and completion writes the flags. -/
theorem testEffect : Obligations.TestEffect := by
  intro s hsized
  exact ⟨fun hselected => hselected.exec_dispatch hsized.1,
    exec_cmdInstr_of_success (x := .test) hsized rfl rfl⟩

end Sys2Proof.Machine

namespace Sys2Proof.Machine

open Sys2Proof

/-! ### The version and status reporter (43_status_reporter.md) -/

theorem validIn_iff {addr len : Nat} : validIn addr len = true ↔ addr + len ≤ 3 :=
  decide_eq_true_iff

theorem exec_rdIn (addr len : Word) (s : State) :
    exec (.rdIn addr len) s = execRdIn addr len s := rfl

theorem exec_rdIn_of_le {addr len : Word} (s : State) (h : addr.toNat + len.toNat ≤ 3) :
    exec (.rdIn addr len) s =
      .next (s.respond ⟨.ok, some (memRead s .input addr.toNat len.toNat)⟩) := by
  rw [exec_rdIn, execRdIn, if_pos (validIn_iff.mpr h)]

theorem exec_rdIn_of_lt {addr len : Word} (s : State) (h : 3 < addr.toNat + len.toNat) :
    exec (.rdIn addr len) s = .next (afterAddressError s) := by
  rw [exec_rdIn, execRdIn, if_neg (mt validIn_iff.mp (Nat.not_le.mpr h)), raiseAddressError_eq]

theorem decodePort_rdIn (addr len : Word) :
    decodePort (.bus ⟨2, addr, len, []⟩) = .ok (.rdIn addr len) := rfl

/-- The uptime register holds the time modulo 65536 (R35). -/
theorem trunc16_eq_mod (t : Nat) : trunc16 t = BitVec.ofNat 16 (t % 65536) := by
  apply BitVec.eq_of_toNat_eq
  simp [trunc16]

/-- The three input registers, one by one (R33 to R35). -/
theorem inputRegs_getElem? (c : Config) (t : Nat) {j : Nat} (hj : j < 3) :
    (inputRegs c t)[j]? = some
      (if j = 0 then c.protoVersion else if j = 1 then c.fwVersion
       else BitVec.ofNat 16 (t % 65536)) := by
  rw [← trunc16_eq_mod]
  match j, hj with
  | 0, _ => rfl
  | 1, _ => rfl
  | 2, _ => rfl

theorem memRead_input_getElem? (s : State) (a n : Nat) {i : Nat} (hi : i < n) :
    (memRead s .input a n)[i]? = (inputRegs s.cfg s.nowMs)[a + i]? := by
  simp [memRead, hi]

theorem memRead_input_length (s : State) {a n : Nat} (h : a + n ≤ 3) :
    (memRead s .input a n).length = n := by
  simp [memRead, inputRegs]
  omega

/-- Settles O11: a range that `ValidIn` admits lies within the three input registers, which are computed from the
configuration and the time alone. -/
theorem readInputRegisters : Obligations.ReadInputRegisters := by
  intro s addr len
  refine ⟨decodePort_rdIn addr len, fun hrange => ?_, exec_rdIn_of_lt s⟩
  refine ⟨memRead s .input addr.toNat len.toNat, exec_rdIn_of_le s hrange,
    memRead_input_length s hrange, fun i hi => ?_⟩
  rw [memRead_input_getElem? s _ _ hi]
  exact inputRegs_getElem? s.cfg s.nowMs (by omega)

end Sys2Proof.Machine

namespace Sys2Proof.Machine

open Sys2Proof

/-! ### AddressError (R201, R202) -/

/-- The causes of AddressError that R202 lists, for a block with the configuration `c`. -/
def AddressErrorCause (c : Config) : BusOp → Prop
  | .rdHold addr len => ¬ HoldRange c addr len
  | .wrHold addr len _ => ¬ HoldRange c addr len
  | .rdIn addr len => 3 < addr.toNat + len.toNat
  | .wrIn _ _ _ => True

theorem exec_wrIn (addr len : Word) (vs : List Word) (s : State) :
    exec (.wrIn addr len vs) s = .next (afterAddressError s) := rfl

/-- Each cause of the list is enough to have a well-formed request refused. -/
theorem exec_busInstr_of_cause {op : BusOp} {s : State} (hwf : op.wf = true)
    (hcause : AddressErrorCause s.cfg op) :
    exec (busInstr op) s = .next (afterAddressError s) := by
  cases op with
  | rdHold addr len => exact exec_rdHold_of_not_holdRange hcause
  | wrHold addr len vs => exact exec_wrHold_of_not_holdRange ((dataLengthOk_iff len vs).mp hwf) hcause
  | rdIn addr len => exact exec_rdIn_of_lt s hcause
  | wrIn addr len vs => exact exec_wrIn addr len vs s

/-- Without a cause a well-formed request is answered `OK`, once. -/
theorem exec_busInstr_of_not_cause {op : BusOp} {s : State} (hwf : op.wf = true)
    (hcause : ¬ AddressErrorCause s.cfg op) :
    ∃ t rdata, exec (busInstr op) s = .next t ∧ t.responses = s.responses ++ [⟨.ok, rdata⟩] := by
  cases op with
  | rdHold addr len => exact ⟨_, _, exec_rdHold_of_holdRange (not_not.mp hcause), rfl⟩
  | wrHold addr len vs =>
    have hvs : vs.length = len.toNat := (dataLengthOk_iff len vs).mp hwf
    exact ⟨_, _, exec_wrHold_of_holdRange hvs (not_not.mp hcause), rfl⟩
  | rdIn addr len => exact ⟨_, _, exec_rdIn_of_le s (Nat.not_lt.mp hcause), rfl⟩
  | wrIn addr len vs => exact absurd trivial hcause

/-- A write whose data has not the announced length has no step (D15), so a request that completes is well-formed. -/
theorem wf_of_exec_busInstr_next {op : BusOp} {s t : State} (h : exec (busInstr op) s = .next t) :
    op.wf = true := by
  cases op with
  | rdHold addr len => rfl
  | wrHold addr len vs =>
    by_contra hlength
    have hrefused : exec (.wrHold addr len vs) s = .refused (.badRequest .dataLength) := by
      rw [exec_wrHold, execWrHold]
      exact if_neg hlength
    rw [busInstr, hrefused] at h
    cases h
  | rdIn addr len => rfl
  | wrIn addr len vs => rfl

/-- What a bus request that completes can be: refused, with a cause and no effect, or answered `OK`. -/
theorem exec_busInstr_cases {op : BusOp} {s t : State} (h : exec (busInstr op) s = .next t) :
    (AddressErrorCause s.cfg op ∧ t = afterAddressError s) ∨
    (¬ AddressErrorCause s.cfg op ∧ ∃ rdata, t.responses = s.responses ++ [⟨.ok, rdata⟩]) := by
  have hwf : op.wf = true := wf_of_exec_busInstr_next h
  by_cases hcause : AddressErrorCause s.cfg op
  · rw [exec_busInstr_of_cause hwf hcause] at h
    cases h
    exact .inl ⟨hcause, rfl⟩
  · obtain ⟨u, rdata, hu, hresponses⟩ := exec_busInstr_of_not_cause hwf hcause
    rw [hu] at h
    cases h
    exact .inr ⟨hcause, rdata, hresponses⟩

/-- The list of causes is complete (R202). -/
theorem exec_busInstr_eq_afterAddressError_iff {op : BusOp} {s : State} (hwf : op.wf = true) :
    exec (busInstr op) s = .next (afterAddressError s) ↔ AddressErrorCause s.cfg op := by
  refine ⟨fun h => ?_, exec_busInstr_of_cause hwf⟩
  obtain ⟨hcause, -⟩ | ⟨-, rdata, hok⟩ := exec_busInstr_cases h
  · exact hcause
  · simp [afterAddressError] at hok

/-- Settles O14: a request that is not refused is answered `OK`, so the response is that of the refusal, whose state
differs from the one before in the response list alone. -/
theorem addressErrorHasNoEffect : Obligations.AddressErrorHasNoEffect := by
  intro op s t r hexec hresponse hstatus
  obtain ⟨-, rfl⟩ | ⟨-, rdata, hok⟩ := exec_busInstr_cases hexec
  · have hr : r = ⟨.addressError, none⟩ := by simpa [afterAddressError] using hresponse.symm
    exact ⟨by rw [hr], rfl⟩
  · have hr : r = ⟨.ok, rdata⟩ := by simpa [hok] using hresponse.symm
    rw [hr] at hstatus
    cases hstatus

/-! ### A `DISPATCH` gives no response (R202) -/

@[simp] theorem complete_responses (o : HandlerOutcome) (s : State) :
    (complete o s).responses = s.responses := by
  rw [complete_frame]

@[simp] theorem emitLevelRead_responses (pin : Word) (s : State) :
    (emitLevelRead pin s).2.responses = s.responses := by
  rw [emitLevelRead_frame]

theorem delayXHandler_responses (s : State) : (delayXHandler s).2.responses = s.responses := rfl

theorem cmdHandler_responses (x : Cmd) (s : State) :
    (cmdHandler x s).2.responses = s.responses := by
  cases x with
  | setPin =>
    rw [cmdHandler, setPinHandler]
    split <;> rfl
  | getPin =>
    rw [cmdHandler, getPinHandler]
    split
    · rfl
    · simp
  | delay =>
    rw [cmdHandler, delayHandler]
    split
    · exact delayXHandler_responses s
    · rfl
  | delayX => exact delayXHandler_responses s
  | test => rfl

theorem runHandler_responses {h : State → HandlerOutcome × State} {s t : State}
    (hhandler : (h s).2.responses = s.responses) (hrun : runHandler h s = .next t) :
    t.responses = s.responses := by
  obtain rfl := runHandler_eq_next.mp hrun
  rw [complete_responses, hhandler]

/-- Neither the five handlers nor the fallback answer the transport, and completion does not either. -/
theorem exec_dispatch_responses {s t : State} (h : exec .dispatch s = .next t) :
    t.responses = s.responses := by
  cases hpending : cmdPending s.cmd with
  | false =>
    rw [exec_dispatch_of_not_pending hpending] at h
    cases h
    rfl
  | true =>
    cases hroute : route s.cfg (cmdCode s.cmd) with
    | some x =>
      rw [exec_dispatch_of_route_some hpending hroute, exec_cmdInstr] at h
      exact runHandler_responses (cmdHandler_responses x s) h
    | none =>
      rw [exec_dispatch_of_route_none hpending hroute 0, exec_illCmd] at h
      exact runHandler_responses (h := illCmdHandler) rfl h

/-- Settles O15: a request with a cause of the list is refused, one without is answered `OK`, and a `DISPATCH` leaves
the response list as it is. -/
theorem addressErrorCauses : Obligations.AddressErrorCauses :=
  ⟨fun _ _ hwf => exec_busInstr_eq_afterAddressError_iff hwf, fun _ _ => exec_dispatch_responses⟩

end Sys2Proof.Machine

namespace Sys2Proof.Machine

open Sys2Proof

/-! ### Decoding and encoding (30_encoding.md) -/

/-- A word that is not pending is `NOCMD`, with everything it holds beside `P` (R103). -/
theorem decodeCmd_of_not_pending (c : Config) {w : Word} (h : cmdPending w = false) :
    decodeCmd c w = .noCmd (cmdRest w) := by
  simp [decodeCmd, h]

theorem decodeCmd_of_route_some {c : Config} {w : Word} {x : Cmd} (hpending : cmdPending w = true)
    (hroute : route c (cmdCode w) = some x) : decodeCmd c w = cmdInstr x := by
  simp [decodeCmd, hpending, hroute]

theorem decodeCmd_of_route_none {c : Config} {w : Word} (hpending : cmdPending w = true)
    (hroute : route c (cmdCode w) = none) : decodeCmd c w = .illCmd (cmdCode w) := by
  simp [decodeCmd, hpending, hroute]

/-- No command of the mapping is the fallback, nor `NOCMD`. -/
theorem cmdInstr_ne_illCmd (x : Cmd) (k : BitVec 14) : cmdInstr x ≠ .illCmd k := by
  cases x <;> nofun

theorem cmdInstr_ne_noCmd (x : Cmd) (r : BitVec 15) : cmdInstr x ≠ .noCmd r := by
  cases x <;> nofun

/-- A word selects a command exactly when it is pending and holds the command's code (R93). -/
theorem decodeCmd_eq_cmdInstr_iff {c : Config} (hwf : c.wf = true) (w : Word) (x : Cmd) :
    decodeCmd c w = cmdInstr x ↔ cmdPending w = true ∧ cmdCode w = c.code x := by
  constructor
  · intro h
    cases hpending : cmdPending w with
    | false =>
      rw [decodeCmd_of_not_pending c hpending] at h
      exact absurd h.symm (cmdInstr_ne_noCmd x _)
    | true =>
      cases hroute : route c (cmdCode w) with
      | none =>
        rw [decodeCmd_of_route_none hpending hroute] at h
        exact absurd h.symm (cmdInstr_ne_illCmd x _)
      | some y =>
        rw [decodeCmd_of_route_some hpending hroute] at h
        obtain rfl := cmdInstr_injective h
        exact ⟨rfl, route_eq_some hroute⟩
  · rintro ⟨hpending, hcode⟩
    exact decodeCmd_of_route_some hpending (hcode ▸ route_code hwf x)

theorem decodeCmd_literal {c : Config} (hwf : c.wf = true) (x : Cmd) :
    decodeCmd c (literal c x) = cmdInstr x :=
  (decodeCmd_eq_cmdInstr_iff hwf _ x).mpr ⟨submitted_pending _, submitted_code _⟩

theorem decodeCmd_unmapped {c : Config} {k : BitVec 14} (h : Instr.wf c (.illCmd k) = true) :
    decodeCmd c (0x8000#16 ||| k.setWidth 16) = .illCmd k := by
  have hroute : route c k = none := route_eq_none.mpr ((Bool.not_eq_true' _).mp h)
  rw [decodeCmd_of_route_none (submitted_pending k) (by rwa [submitted_code]), submitted_code]

theorem decodeCmd_idle (c : Config) (r : BitVec 15) :
    decodeCmd c (r.setWidth 16) = .noCmd r := by
  rw [decodeCmd_of_not_pending c (idle_not_pending r), idle_rest]

theorem encode_cmdInstr (c : Config) (x : Cmd) : encode c (cmdInstr x) = .cmdw (literal c x) := by
  cases x <;> rfl

/-- The four request kinds are numbered apart, and a well-formed write carries the data it announces (R94). -/
theorem decodeBus_encodeBus {op : BusOp} (h : op.wf = true) : decodeBus (encodeBus op) = .ok op := by
  cases op with
  | rdHold addr len => rfl
  | wrHold addr len vs =>
    have hvs : dataLengthOk len vs = true := h
    simp [encodeBus, decodeBus, hvs]
  | rdIn addr len => rfl
  | wrIn addr len vs => rfl

theorem decode_busInstr (c : Config) {op : BusOp} (h : op.wf = true) :
    decode c (.port (.bus (encodeBus op))) = .ok (busInstr op) := by
  simp only [decode, decodePort, decodeBus_encodeBus h]

theorem decode_encode_cmdInstr {c : Config} (hwf : c.wf = true) (x : Cmd) :
    decode c (encode c (cmdInstr x)) = .ok (cmdInstr x) := by
  rw [encode_cmdInstr, decode, decodeCmd_literal hwf]

/-- Settles O1: the encoding of a command word is decoded by its code, that of a request by its kind, and the other
operations at the port stand there as they are. -/
theorem decodeOfEncodeIsIdentity : Obligations.DecodeOfEncodeIsIdentity := by
  intro c i hc hi
  cases i with
  | setPin => exact decode_encode_cmdInstr hc .setPin
  | getPin => exact decode_encode_cmdInstr hc .getPin
  | delay => exact decode_encode_cmdInstr hc .delay
  | delayX => exact decode_encode_cmdInstr hc .delayX
  | test => exact decode_encode_cmdInstr hc .test
  | illCmd k => rw [encode, decode, decodeCmd_unmapped hi]
  | noCmd r => rw [encode, decode, decodeCmd_idle]
  | rdHold addr len => exact decode_busInstr c (op := .rdHold addr len) rfl
  | wrHold addr len vs => exact decode_busInstr c (op := .wrHold addr len vs) hi
  | rdIn addr len => exact decode_busInstr c (op := .rdIn addr len) rfl
  | wrIn addr len vs => exact decode_busInstr c (op := .wrIn addr len vs) rfl
  | dispatch => rfl
  | pollCycle op =>
    cases op with
    | none => rfl
    | some op => simp only [encode, decode, decodePort, decodeBus_encodeBus (op := op) hi]
  | call x args k =>
    have hargs : args.length + 1 ≤ 65535 := of_decide_eq_true hi
    rw [encode, decode, decodePort, decodeCall, if_pos hargs]
  | clrErr => rfl

/-! ### Bit 14 of a command word (R93, D11) -/

/-- The mask `0xBFFF` of R93 leaves `P` and `CODE` as they are. -/
theorem cmdPending_mask (w : Word) : cmdPending (w &&& 0xBFFF#16) = cmdPending w := by
  simp [cmdPending]

theorem cmdCode_mask (w : Word) : cmdCode (w &&& 0xBFFF#16) = cmdCode w := by
  ext i hi
  simp only [cmdCode]
  interval_cases i <;> simp

/-- Match and mask say that the word is pending and what its code is. -/
theorem mask_eq_submitted_iff (w : Word) (k : BitVec 14) :
    w &&& 0xBFFF#16 = 0x8000#16 ||| k.setWidth 16 ↔ cmdPending w = true ∧ cmdCode w = k := by
  constructor
  · intro h
    rw [← cmdPending_mask, ← cmdCode_mask, h]
    exact ⟨submitted_pending k, submitted_code k⟩
  · rintro ⟨hpending, rfl⟩
    exact (submitted_word w hpending).symm

/-- Settles O2: both sides say that the word is pending and holds the command's code. -/
theorem commandSelectedByMatchAndMask : Obligations.CommandSelectedByMatchAndMask :=
  fun c x w hwf => (decodeCmd_eq_cmdInstr_iff hwf w x).trans (mask_eq_submitted_iff w (c.code x)).symm

/-- Settles O3: a pending word is decoded to its code, mapped or not, whose encoding is the word but for bit 14; an idle
word is decoded to all it holds beside `P`. -/
theorem encodeOfDecodedCommandWord : Obligations.EncodeOfDecodedCommandWord := by
  intro c w _
  cases hpending : cmdPending w with
  | false => rw [decodeCmd_of_not_pending c hpending, encode, idle_word w hpending, if_neg nofun]
  | true =>
    rw [if_pos rfl, ← submitted_word w hpending]
    cases hroute : route c (cmdCode w) with
    | some x =>
      rw [decodeCmd_of_route_some hpending hroute, encode_cmdInstr, literal, route_eq_some hroute]
    | none => rw [decodeCmd_of_route_none hpending hroute, encode]

/-- Settles O4: closed words, each evaluated. -/
theorem referenceWordsDecode : Obligations.ReferenceWordsDecode := by
  refine ⟨?_, ?_, ?_, ?_, ?_, ?_, ?_, ?_, ?_, ?_⟩ <;> decide

theorem decodePort_wrHold_of_length_ne {addr len : Word} {vs : List Word} (h : vs.length ≠ len.toNat) :
    decodePort (.bus ⟨1, addr, len, vs⟩) = .error .dataLength := by
  simp [decodePort, decodeBus, dataLengthOk, h]

/-- Settles O5: `WR_HOLD` alone looks at the length of its data. -/
theorem requestKindsDecode : Obligations.RequestKindsDecode := by
  intro a l vs
  exact ⟨decodePort_rdHold a l, decodePort_wrHold, decodePort_wrHold_of_length_ne, decodePort_rdIn a l, rfl⟩

end Sys2Proof.Machine

namespace Sys2Proof.Machine

open Sys2Proof

/-! ### Bus requests: lengths, ranges and responses (40_bus_access.md, 43_status_reporter.md) -/

/-- Settles O8: the check of the data length stands before everything else a write does. -/
theorem writeWithWrongDataLengthHasNoStep : Obligations.WriteWithWrongDataLengthHasNoStep := by
  intro s addr len vs h
  rw [exec_wrHold, execWrHold, if_neg (mt (dataLengthOk_iff len vs).mp h)]

/-- Settles O12: `WR_IN` has no other outcome. -/
theorem writeInputAlwaysRefused : Obligations.WriteInputAlwaysRefused :=
  fun s addr len vs => exec_wrIn addr len vs s

/-- The sum is a natural number, and no file has 65536 registers. -/
theorem not_holdRange_of_le_add {c : Config} {addr len : Word} (hwf : c.wf = true)
    (h : 65536 ≤ addr.toNat + len.toNat) : ¬ HoldRange c addr len := by
  intro hrange
  have hfile := hrange.le
  have hn := (Config.wf_n hwf).2
  omega

/-- Settles O9: such a sum is past the end of the largest file, and past the three input registers. -/
theorem rangeSumDoesNotWrap : Obligations.RangeSumDoesNotWrap := by
  intro s addr len vs hwf hsum hvs
  have hrange := not_holdRange_of_le_add hwf hsum
  exact ⟨exec_rdHold_of_not_holdRange hrange, exec_wrHold_of_not_holdRange hvs hrange,
    exec_rdIn_of_lt s (by omega)⟩

/-- At address 0 the two policies allow the same lengths (R64). -/
theorem holdRange_zero_iff {c : Config} {len : Word} : HoldRange c 0 len ↔ len.toNat ≤ c.n := by
  unfold HoldRange
  cases c.addrPolicy <;> simp

theorem holdRange_zero_withPolicy_iff (s : State) (p : AddrPolicy) (len : Word) :
    HoldRange (s.withPolicy p).cfg 0 len ↔ HoldRange s.cfg 0 len := by
  rw [holdRange_zero_iff, holdRange_zero_iff]
  rfl

/-- Settles O10: at address 0 both policies allow the same lengths, and nothing but the check looks at the policy. -/
theorem accessFromZeroAgreesUnderBothPolicies : Obligations.AccessFromZeroAgreesUnderBothPolicies := by
  intro s p len vs hvs
  have hiff := holdRange_zero_withPolicy_iff s p len
  by_cases hrange : HoldRange s.cfg 0 len
  · exact ⟨⟨_, exec_rdHold_of_holdRange hrange, exec_rdHold_of_holdRange (hiff.mpr hrange)⟩,
      ⟨_, exec_wrHold_of_holdRange hvs hrange, exec_wrHold_of_holdRange hvs (hiff.mpr hrange)⟩⟩
  · exact ⟨⟨_, exec_rdHold_of_not_holdRange hrange, exec_rdHold_of_not_holdRange (mt hiff.mp hrange)⟩,
      ⟨_, exec_wrHold_of_not_holdRange hvs hrange,
        exec_wrHold_of_not_holdRange hvs (mt hiff.mp hrange)⟩⟩

/-- The uptime register alone, read (R35). -/
theorem exec_rdIn_uptime (s : State) :
    exec (.rdIn 2 1) s = .next (s.respond ⟨.ok, some [trunc16 s.nowMs]⟩) :=
  exec_rdIn_of_le s (by decide)

theorem trunc16_sub_toNat {t u : Nat} (h : t ≤ u) :
    (trunc16 u - trunc16 t).toNat = (u - t) % 65536 := by
  simp only [trunc16, BitVec.toNat_sub, BitVec.toNat_ofNat]
  omega

/-- Settles O13: each read answers the time modulo 65536. -/
theorem uptimeDifferenceModulo65536 : Obligations.UptimeDifferenceModulo65536 :=
  fun s u h => ⟨trunc16 s.nowMs, trunc16 u.nowMs, exec_rdIn_uptime s, exec_rdIn_uptime u,
    trunc16_sub_toNat h⟩

/-- A read of the holding registers answers the words of an admitted range, or is refused. -/
theorem exec_rdHold_cases {s t : State} {addr len : Word} (h : exec (.rdHold addr len) s = .next t) :
    (HoldRange s.cfg addr len ∧ t = s.respond ⟨.ok, some (memRead s .hold addr.toNat len.toNat)⟩) ∨
    t = afterAddressError s := by
  by_cases hrange : HoldRange s.cfg addr len
  · rw [exec_rdHold_of_holdRange hrange] at h
    cases h
    exact .inl ⟨hrange, rfl⟩
  · rw [exec_rdHold_of_not_holdRange hrange] at h
    cases h
    exact .inr rfl

theorem exec_rdIn_cases {s t : State} {addr len : Word} (h : exec (.rdIn addr len) s = .next t) :
    (addr.toNat + len.toNat ≤ 3 ∧
      t = s.respond ⟨.ok, some (memRead s .input addr.toNat len.toNat)⟩) ∨
    t = afterAddressError s := by
  by_cases hrange : addr.toNat + len.toNat ≤ 3
  · rw [exec_rdIn_of_le s hrange] at h
    cases h
    exact .inl ⟨hrange, rfl⟩
  · rw [exec_rdIn_of_lt s (Nat.not_le.mp hrange)] at h
    cases h
    exact .inr rfl

/-- A write of holding registers that completes was performed whole or refused; the answer carries no data. -/
theorem exec_wrHold_cases {s t : State} {addr len : Word} {vs : List Word}
    (h : exec (.wrHold addr len vs) s = .next t) :
    t = (memWrite s addr.toNat vs).respond ⟨.ok, none⟩ ∨ t = afterAddressError s := by
  have hvs : vs.length = len.toNat :=
    (dataLengthOk_iff len vs).mp (wf_of_exec_busInstr_next (op := .wrHold addr len vs) h)
  by_cases hrange : HoldRange s.cfg addr len
  · rw [exec_wrHold_of_holdRange hvs hrange] at h
    cases h
    exact .inl rfl
  · rw [exec_wrHold_of_not_holdRange hvs hrange] at h
    cases h
    exact .inr rfl

/-- Settles O16: a read answers its words or is refused, and no write answers data. -/
theorem oneResponsePerRequest : Obligations.OneResponsePerRequest := by
  intro op s t hsized h
  cases op with
  | rdHold addr len =>
    obtain ⟨hrange, rfl⟩ | rfl := exec_rdHold_cases h
    · exact ⟨_, rfl, _, rfl, memRead_hold_length s _ _ (hsized.2 ▸ hrange.le)⟩
    · exact ⟨⟨.addressError, none⟩, rfl, rfl⟩
  | wrHold addr len vs =>
    obtain rfl | rfl := exec_wrHold_cases h
    · exact ⟨⟨.ok, none⟩, rfl, rfl⟩
    · exact ⟨⟨.addressError, none⟩, rfl, rfl⟩
  | rdIn addr len =>
    obtain ⟨hrange, rfl⟩ | rfl := exec_rdIn_cases h
    · exact ⟨_, rfl, _, rfl, memRead_input_length s hrange⟩
    · exact ⟨⟨.addressError, none⟩, rfl, rfl⟩
  | wrIn addr len vs =>
    cases h
    exact ⟨⟨.addressError, none⟩, rfl, rfl⟩

end Sys2Proof.Machine

namespace Sys2Proof.Machine

open Sys2Proof

/-! ### `DISPATCH` and the decoder (41_dispatch.md) -/

/-- Settles O19: the dispatcher and the decoder both look at `P`, then at the route of `CODE`. -/
theorem dispatchRunsDecodedCommandWord : Obligations.DispatchRunsDecodedCommandWord := by
  intro s
  cases hpending : cmdPending s.cmd with
  | false =>
    rw [exec_dispatch_of_not_pending hpending, decodeCmd_of_not_pending s.cfg hpending]
    rfl
  | true =>
    cases hroute : route s.cfg (cmdCode s.cmd) with
    | some x =>
      rw [exec_dispatch_of_route_some hpending hroute, decodeCmd_of_route_some hpending hroute]
    | none =>
      rw [exec_dispatch_of_route_none hpending hroute (cmdCode s.cmd),
        decodeCmd_of_route_none hpending hroute]

/-- Settles O21: the first one leaves `P` = 0, and the second one finds it so. -/
theorem secondDispatchDoesNothing : Obligations.SecondDispatchDoesNothing :=
  fun _ _ h => exec_dispatch_of_not_pending (exec_dispatch_not_pending h)

/-- Settles O22: a `DISPATCH` leaves `P` = 0, so a state it answers unchanged had `P` = 0 before. -/
theorem quiescentExactlyWhenIdle : Obligations.QuiescentExactlyWhenIdle :=
  fun _ => ⟨exec_dispatch_not_pending, exec_dispatch_of_not_pending⟩

/-! ### One handler or none -/

/-- What the dispatcher runs once the code is routed: the handler of the command, or the fallback (R142, R144). -/
def routedHandler (c : Config) (k : BitVec 14) : State → HandlerOutcome × State :=
  match route c k with
  | some x => cmdHandler x
  | none => illCmdHandler

theorem exec_dispatch_of_pending {s : State} (hpending : cmdPending s.cmd = true) :
    exec .dispatch s = runHandler (routedHandler s.cfg (cmdCode s.cmd)) s := by
  unfold routedHandler
  cases hroute : route s.cfg (cmdCode s.cmd) with
  | some x => rw [exec_dispatch_of_route_some hpending hroute, exec_cmdInstr]
  | none => rw [exec_dispatch_of_route_none hpending hroute 0, exec_illCmd]

/-- What holds of the five handlers and of the fallback holds of the one that is run. -/
theorem routedHandler_induction {motive : (State → HandlerOutcome × State) → Prop} (c : Config)
    (k : BitVec 14) (hcmd : ∀ x, motive (cmdHandler x)) (hill : motive illCmdHandler) :
    motive (routedHandler c k) := by
  unfold routedHandler
  split
  · exact hcmd _
  · exact hill

theorem exec_dispatch_eq_complete {s t : State} (hpending : cmdPending s.cmd = true)
    (h : exec .dispatch s = .next t) :
    t = complete (routedHandler s.cfg (cmdCode s.cmd) s).1 (routedHandler s.cfg (cmdCode s.cmd) s).2 := by
  rw [exec_dispatch_of_pending hpending] at h
  exact runHandler_eq_next.mp h

/-! ### The two pin handlers by their cases (R161, R165) -/

theorem setPinAllows_iff {c : Config} {pin : Word} :
    setPinAllows c pin = true ↔ pin ∈ c.setPinAllowed := List.contains_iff_mem

theorem getPinRejects_iff {c : Config} {pin : Word} :
    getPinRejects c pin = true ↔ pin ∈ c.getPinDisallowed := List.contains_iff_mem

theorem pinOperand_eq_H (s : State) : s.pinOperand = s.H 1 := rfl

theorem stateOperand_eq_H (s : State) : s.stateOperand = s.H 2 := rfl

theorem setPinHandler_of_mem {s : State} (h : s.H 1 ∈ s.cfg.setPinAllowed) :
    setPinHandler s =
      (.success, (s.emit (.levelWrite (s.H 1) (s.H 2))).emit (.dirConfig (s.H 1) .output)) := by
  rw [setPinHandler, pinOperand_eq_H, stateOperand_eq_H, if_pos (setPinAllows_iff.mpr h)]

theorem setPinHandler_of_not_mem {s : State} (h : s.H 1 ∉ s.cfg.setPinAllowed) :
    setPinHandler s = (.failure .illegalParam, s) := by
  rw [setPinHandler, pinOperand_eq_H, if_neg (mt setPinAllows_iff.mp h)]

/-- The direction of a GetPin, given before the sample is taken. -/
def configuredInput (s : State) : State := s.emit (.dirConfig (s.H 1) .inputPullup)

/-- The answer to the `LevelRead` of a GetPin. -/
def sampledLevel (s : State) : Level := (drawLevel (s.H 1) (configuredInput s)).1

/-- The state after the `LevelRead` of a GetPin. -/
def sampled (s : State) : State := (emitLevelRead (s.H 1) (configuredInput s)).2

theorem sampled_eq (s : State) :
    sampled s = { s with
      trace := s.trace ++ [.dirConfig (s.H 1) .inputPullup, .levelRead (s.H 1) (sampledLevel s)]
      levels := (drawLevel (s.H 1) (configuredInput s)).2.levels
      draws := (drawLevel (s.H 1) (configuredInput s)).2.draws } := by
  rw [sampled, emitLevelRead_frame, configuredInput, emit_trace, List.append_assoc]
  rfl

@[simp] theorem sampled_regs (s : State) : (sampled s).regs = s.regs := by rw [sampled_eq]
@[simp] theorem sampled_trace (s : State) :
    (sampled s).trace =
      s.trace ++ [.dirConfig (s.H 1) .inputPullup, .levelRead (s.H 1) (sampledLevel s)] := by
  rw [sampled_eq]

@[simp] theorem sampled_H (s : State) (i : Nat) : (sampled s).H i = s.H i :=
  H_congr (sampled_regs s) i

theorem getPinHandler_of_mem {s : State} (h : s.H 1 ∈ s.cfg.getPinDisallowed) :
    getPinHandler s = (.failure .illegalParam, s) := by
  rw [getPinHandler, pinOperand_eq_H, if_pos (getPinRejects_iff.mpr h)]

theorem getPinHandler_of_not_mem {s : State} (h : s.H 1 ∉ s.cfg.getPinDisallowed) :
    getPinHandler s = (.success, (sampled s).writeH 2 (levelWord (sampledLevel s))) := by
  rw [getPinHandler, pinOperand_eq_H, if_neg (mt getPinRejects_iff.mp h)]
  rfl

/-! ### SetPin and GetPin, completed -/

theorem errPattern_illegalParam : errPattern .illegalParam = 0xFFFE#16 := rfl

/-- A sized file has the registers that completion writes. -/
theorem State.Sized.one_lt_length {s : State} (h : s.Sized) : 1 < s.regs.length :=
  Nat.lt_of_lt_of_le (by decide) h.three_le

/-- A command that fails leaves what R203 says, its handler having done nothing. -/
theorem exec_cmdInstr_of_failure {s : State} {x : Cmd} {ec : ErrCode} (hsized : s.Sized)
    (h : cmdHandler x s = (.failure ec, s)) :
    exec (cmdInstr x) s = .next (afterFailure s (errPattern ec)) := by
  rw [exec_cmdInstr, runHandler, h, complete_failure ec hsized.one_lt_length]

theorem exec_setPin_of_mem {s : State} (hsized : s.Sized) (h : s.H 1 ∈ s.cfg.setPinAllowed) :
    exec .setPin s = .next { s with
      regs := s.regs.set 0 (cmdAfterSuccess s.cmd)
      trace := s.trace ++ [.levelWrite (s.H 1) (s.H 2), .dirConfig (s.H 1) .output] } := by
  have hhandler : cmdHandler .setPin s = _ := setPinHandler_of_mem h
  have hexec := exec_cmdInstr_of_success (x := .setPin) hsized (by rw [hhandler]) (by rw [hhandler]; rfl)
  rw [hhandler] at hexec
  refine hexec.trans ?_
  simp [State.emit]

theorem exec_setPin_of_not_mem {s : State} (hsized : s.Sized) (h : s.H 1 ∉ s.cfg.setPinAllowed) :
    exec .setPin s = .next (afterFailure s 0xFFFE#16) := by
  rw [← errPattern_illegalParam]
  exact exec_cmdInstr_of_failure (x := .setPin) hsized (setPinHandler_of_not_mem h)

theorem exec_getPin_of_mem {s : State} (hsized : s.Sized) (h : s.H 1 ∈ s.cfg.getPinDisallowed) :
    exec .getPin s = .next (afterFailure s 0xFFFE#16) := by
  rw [← errPattern_illegalParam]
  exact exec_cmdInstr_of_failure (x := .getPin) hsized (getPinHandler_of_mem h)

/-- The sample goes into `H[2]`, then the command word is completed. -/
theorem exec_getPin_of_not_mem {s : State} (hsized : s.Sized) (h : s.H 1 ∉ s.cfg.getPinDisallowed) :
    exec .getPin s = .next { sampled s with
      regs := (s.regs.set 2 (levelWord (sampledLevel s))).set 0 (cmdAfterSuccess s.cmd) } := by
  have hlength := hsized.three_le
  have hcmd : ((sampled s).writeH 2 (levelWord (sampledLevel s))).cmd = s.cmd := by
    rw [cmd_eq_H, writeH_H_other _ _ _ _ (by decide), sampled_H, cmd_eq_H]
  have hexec : exec .getPin s = runHandler getPinHandler s := exec_cmdInstr .getPin s
  rw [hexec, runHandler, getPinHandler_of_not_mem h, complete_success (by simp; omega), hcmd,
    writeH_regs, sampled_regs]
  rfl

/-- Settles O31: the handler succeeds on an allowed pin, writing no register, and fails on any other. -/
theorem setPinEffect : Obligations.SetPinEffect := by
  intro s hsized
  exact ⟨fun hselected => hselected.exec_dispatch hsized.1, exec_setPin_of_mem hsized,
    exec_setPin_of_not_mem hsized⟩

/-- Settles O32: the level is the environment's answer to the `LevelRead`, whatever it is. -/
theorem getPinEffect : Obligations.GetPinEffect := by
  intro s hsized
  refine ⟨fun hselected => hselected.exec_dispatch hsized.1, fun hpin => ?_, exec_getPin_of_mem hsized⟩
  refine ⟨_, sampledLevel s, exec_getPin_of_not_mem hsized hpin, ?_⟩
  rw [sampled_eq]
  rfl

end Sys2Proof.Machine

namespace Sys2Proof.Machine

open Sys2Proof

/-! ### What a handler leaves of the registers -/

/-- A handler writes no register but `H[2]`, which GetPin alone writes (R160, R165). -/
theorem cmdHandler_H (x : Cmd) (s : State) {i : Nat} (hi : i ≠ 2) :
    (cmdHandler x s).2.H i = s.H i := by
  cases x with
  | setPin =>
    by_cases h : s.H 1 ∈ s.cfg.setPinAllowed
    · rw [cmdHandler, setPinHandler_of_mem h]; rfl
    · rw [cmdHandler, setPinHandler_of_not_mem h]
  | getPin =>
    by_cases h : s.H 1 ∈ s.cfg.getPinDisallowed
    · rw [cmdHandler, getPinHandler_of_mem h]
    · rw [cmdHandler, getPinHandler_of_not_mem h, writeH_H_other _ _ _ _ hi.symm, sampled_H]
  | delay =>
    rw [cmdHandler, delayHandler]
    split <;> rfl
  | delayX => rfl
  | test => rfl

theorem routedHandler_H (c : Config) (k : BitVec 14) (s : State) {i : Nat} (hi : i ≠ 2) :
    (routedHandler c k s).2.H i = s.H i :=
  routedHandler_induction (motive := fun h => (h s).2.H i = s.H i) c k
    (fun x => cmdHandler_H x s hi) rfl

theorem cmdHandler_advance (x : Cmd) (s : State) : Advance s (cmdHandler x s).2 := by
  cases x with
  | setPin => exact setPinHandler_advance s
  | getPin => exact getPinHandler_advance s
  | delay => exact delayHandler_advance s
  | delayX => exact delayXHandler_advance s
  | test => exact .refl s

theorem routedHandler_advance (c : Config) (k : BitVec 14) (s : State) :
    Advance s (routedHandler c k s).2 :=
  routedHandler_induction (motive := fun h => Advance s (h s).2) c k
    (fun x => cmdHandler_advance x s) (.refl s)

/-- A handler that fails has done nothing (R160, R162). -/
theorem cmdHandler_failure {x : Cmd} {s : State} {ec : ErrCode}
    (h : (cmdHandler x s).1 = .failure ec) : (cmdHandler x s).2 = s := by
  cases x with
  | setPin => exact (setPinHandler_failure h).1
  | getPin => exact (getPinHandler_failure h).1
  | delay => exact absurd ((delayHandler_success s).symm.trans h) nofun
  | delayX => cases h
  | test => cases h

theorem routedHandler_failure {c : Config} {k : BitVec 14} {s : State} {ec : ErrCode} :
    (routedHandler c k s).1 = .failure ec → (routedHandler c k s).2 = s :=
  routedHandler_induction (motive := fun h => (h s).1 = .failure ec → (h s).2 = s) c k
    (fun _ => cmdHandler_failure) fun _ => rfl

/-! ### What a `DISPATCH` keeps (R25, R26, R178) -/

theorem exec_dispatch_H_ge_three {s t : State} (h : exec .dispatch s = .next t) {i : Nat} (hi : 3 ≤ i) :
    t.H i = s.H i := by
  cases hpending : cmdPending s.cmd with
  | false =>
    rw [exec_dispatch_of_not_pending hpending] at h
    cases h
    rfl
  | true =>
    rw [exec_dispatch_eq_complete hpending h, complete_H_ge_two _ _ _ (by omega),
      routedHandler_H _ _ _ (by omega)]

/-- Settles O24: a handler writes at most `H[2]`, and completion at most `H[0]` and `H[1]`. -/
theorem dispatchFrame : Obligations.DispatchFrame := by
  intro s t h
  have hadvance := exec_advance h
  exact ⟨fun i => exec_dispatch_H_ge_three h, hadvance.length, hadvance.cfg,
    exec_dispatch_responses h, hadvance.script, hadvance.boot⟩

theorem cmdCode_clearPending (w : Word) : cmdCode (clearPending w) = cmdCode w := by
  ext i hi
  simp only [cmdCode, clearPending]
  interval_cases i <;> simp

theorem cmdCode_clearError (w : Word) : cmdCode (clearError w) = cmdCode w := cmdCode_mask w

theorem cmdCode_setError (w : Word) : cmdCode (setError w) = cmdCode w := by
  ext i hi
  simp only [cmdCode, setError]
  interval_cases i <;> simp

/-- A write to `CMD` of a word with the code of `CMD` keeps the code, in a file of any size. -/
theorem cmdCode_writeH_zero {s : State} {w : Word} (h : cmdCode w = cmdCode s.cmd) :
    cmdCode (s.writeH 0 w).cmd = cmdCode s.cmd := by
  rw [cmd_eq_H, writeH_H]
  split
  · exact h
  · rfl

theorem writeH_one_cmd (s : State) (w : Word) : (s.writeH 1 w).cmd = s.cmd :=
  writeH_H_other s 1 0 w (by decide)

/-- Without `ERRCODE_IN_CMD` completion writes the two flags alone (R25). -/
theorem cmdCode_complete (o : HandlerOutcome) {s : State} (herrcode : s.cfg.errcodeInCmd = false) :
    cmdCode (complete o s).cmd = cmdCode s.cmd := by
  have hclear : ∀ s1 : State, cmdCode (s1.writeH 0 (clearPending s1.cmd)).cmd = cmdCode s1.cmd :=
    fun _ => cmdCode_writeH_zero (cmdCode_clearPending _)
  refine (hclear _).trans ?_
  cases o with
  | success => exact cmdCode_writeH_zero (cmdCode_clearError _)
  | failure ec =>
    simp only [failCommand, herrcode, Bool.false_eq_true, if_false, writeH_one_cmd]
    exact cmdCode_writeH_zero (cmdCode_setError _)

/-- Settles O27: a handler does not write `CMD`, and completion writes its flags. -/
theorem codeFieldKeptByDispatch : Obligations.CodeFieldKeptByDispatch := by
  intro s t herrcode h
  cases hpending : cmdPending s.cmd with
  | false =>
    rw [exec_dispatch_of_not_pending hpending] at h
    cases h
    rfl
  | true =>
    rw [exec_dispatch_eq_complete hpending h, cmdCode_complete _
      (by rw [(routedHandler_advance _ _ s).cfg, herrcode]), cmd_eq_H, routedHandler_H _ _ _ (by decide)]
    rfl

/-! ### Failure told from success by `E` (R143, R203) -/

theorem afterFailure_eq_writeH (s : State) (ec : Word) :
    afterFailure s ec = (s.writeH 0 (cmdAfterFailure s.cfg ec s.cmd)).writeH 1 ec := rfl

theorem afterFailure_H_one {s : State} (h : 1 < s.regs.length) (ec : Word) :
    (afterFailure s ec).H 1 = ec := by
  rw [afterFailure_eq_writeH, writeH_H_same _ _ _ (by simpa)]

theorem afterFailure_H_two (s : State) (ec : Word) : (afterFailure s ec).H 2 = s.H 2 := by
  rw [afterFailure_eq_writeH, writeH_H_other _ _ _ _ (by decide), writeH_H_other _ _ _ _ (by decide)]

theorem afterFailure_cmd {s : State} (h : 0 < s.regs.length) (ec : Word) :
    (afterFailure s ec).cmd = cmdAfterFailure s.cfg ec s.cmd := by
  rw [afterFailure_eq_writeH, writeH_one_cmd, cmd_eq_H, writeH_H_same _ _ _ h]

theorem cmdError_cmdAfterFailure (c : Config) (ec w : Word) :
    cmdError (cmdAfterFailure c ec w) = true := by
  simp [cmdError, cmdAfterFailure]

theorem cmdError_cmdAfterSuccess (w : Word) : cmdError (cmdAfterSuccess w) = false := by
  simp [cmdError, cmdAfterSuccess]

theorem complete_success_H_one (s : State) : (complete .success s).H 1 = s.H 1 := by
  simp only [complete, writeH_H_other _ 0 1 _ (by decide)]

/-- A pending `DISPATCH` ends in a failure, with `E` = 1, or in a success, with `E` = 0 and `H[1]` kept. -/
theorem exec_dispatch_pending_cases {s t : State} (hsized : s.Sized)
    (hpending : cmdPending s.cmd = true) (h : exec .dispatch s = .next t) :
    (cmdError t.cmd = true ∧ ∃ ec, t = afterFailure s (errPattern ec)) ∨
    (cmdError t.cmd = false ∧ t.H 1 = s.H 1) := by
  have hfile := hsized.one_lt_length
  obtain rfl := exec_dispatch_eq_complete hpending h
  cases hout : (routedHandler s.cfg (cmdCode s.cmd) s).1 with
  | failure ec =>
    rw [routedHandler_failure hout, complete_failure ec (by omega), afterFailure_cmd (by omega)]
    exact .inl ⟨cmdError_cmdAfterFailure _ _ _, ec, rfl⟩
  | success =>
    have hlength := (routedHandler_advance s.cfg (cmdCode s.cmd) s).length
    refine .inr ⟨?_, ?_⟩
    · rw [complete_cmd _ _ (by omega), completedCmd, clearPending_clearError, cmdError_cmdAfterSuccess]
    · rw [complete_success_H_one, routedHandler_H _ _ _ (by decide)]

theorem errPattern_cases (ec : ErrCode) : errPattern ec = 0xFFFF#16 ∨ errPattern ec = 0xFFFE#16 := by
  cases ec with
  | illegalCmd => exact .inl errPattern_illegalCmd
  | illegalParam => exact .inr errPattern_illegalParam

/-- Settles O25: `E` = 1 is a failure, which writes the pattern of its code into `H[1]`; a success keeps `H[1]`. -/
theorem errorFlagTellsErrorCode : Obligations.ErrorFlagTellsErrorCode := by
  intro s t hsized hpending h
  obtain ⟨herror, ec, rfl⟩ | ⟨herror, hone⟩ := exec_dispatch_pending_cases hsized hpending h
  · refine ⟨fun _ => ⟨?_, afterFailure_H_two s _⟩, fun hclear => absurd (herror.symm.trans hclear) nofun⟩
    rw [afterFailure_H_one hsized.one_lt_length]
    exact errPattern_cases ec
  · exact ⟨fun hset => absurd (hset.symm.trans herror) nofun, fun _ => hone⟩

/-- Settles O26: `E` = 1 is a failure, and what a failure leaves differs in the registers alone. -/
theorem failedCommandHasNoSideEffect : Obligations.FailedCommandHasNoSideEffect := by
  intro s t hsized hpending h hset
  obtain ⟨-, ec, rfl⟩ | ⟨herror, -⟩ := exec_dispatch_pending_cases hsized hpending h
  · rfl
  · exact absurd (hset.symm.trans herror) nofun

/-! ### Bit 14 of a pending word (R259) -/

theorem writeH_comm (s : State) {i j : Nat} (hij : i ≠ j) (v w : Word) :
    (s.writeH i v).writeH j w = (s.writeH j w).writeH i v := by
  simp only [State.writeH, List.set_comm v w hij]

theorem writeH_zero_H_one (s : State) (w : Word) : (s.writeH 0 w).H 1 = s.H 1 :=
  writeH_H_other s 0 1 w (by decide)

theorem writeH_zero_H_two (s : State) (w : Word) : (s.writeH 0 w).H 2 = s.H 2 :=
  writeH_H_other s 0 2 w (by decide)

theorem drawLevel_writeH (pin : Word) (s : State) (i : Nat) (w : Word) :
    drawLevel pin (s.writeH i w) = ((drawLevel pin s).1, (drawLevel pin s).2.writeH i w) := by
  simp only [drawLevel, writeH_levels]
  split <;> rfl

theorem configuredInput_writeH_zero (s : State) (w : Word) :
    configuredInput (s.writeH 0 w) = (configuredInput s).writeH 0 w := by
  rw [configuredInput, writeH_zero_H_one]
  rfl

theorem sampledLevel_writeH_zero (s : State) (w : Word) :
    sampledLevel (s.writeH 0 w) = sampledLevel s := by
  rw [sampledLevel, configuredInput_writeH_zero, writeH_zero_H_one, drawLevel_writeH]
  rfl

theorem sampled_writeH_zero (s : State) (w : Word) :
    sampled (s.writeH 0 w) = (sampled s).writeH 0 w := by
  rw [sampled, configuredInput_writeH_zero, writeH_zero_H_one, emitLevelRead, drawLevel_writeH]
  rfl

theorem msOperand_eq_H (s : State) : s.msOperand = s.H 1 := rfl

theorem delayXHandler_writeH_zero (s : State) (w : Word) :
    delayXHandler (s.writeH 0 w) = (.success, (delayXHandler s).2.writeH 0 w) := by
  rw [delayXHandler, msOperand_eq_H, writeH_zero_H_one]
  rfl

/-- No handler reads the command word or writes it. -/
theorem cmdHandler_writeH_zero (x : Cmd) (s : State) (w : Word) :
    cmdHandler x (s.writeH 0 w) = ((cmdHandler x s).1, (cmdHandler x s).2.writeH 0 w) := by
  have hone := writeH_zero_H_one s w
  cases x with
  | setPin =>
    by_cases h : s.H 1 ∈ s.cfg.setPinAllowed
    · rw [cmdHandler, setPinHandler_of_mem h, setPinHandler_of_mem (by rwa [hone]), hone, writeH_zero_H_two]
      rfl
    · rw [cmdHandler, setPinHandler_of_not_mem h, setPinHandler_of_not_mem (by rwa [hone])]
  | getPin =>
    by_cases h : s.H 1 ∈ s.cfg.getPinDisallowed
    · rw [cmdHandler, getPinHandler_of_mem h, getPinHandler_of_mem (by rwa [hone])]
    · rw [cmdHandler, getPinHandler_of_not_mem h, getPinHandler_of_not_mem (by rwa [hone]), sampled_writeH_zero,
        sampledLevel_writeH_zero, writeH_comm _ (by decide)]
  | delay =>
    rw [cmdHandler]
    cases hpolicy : s.cfg.delayRxPolicy with
    | drop =>
      rw [delayHandler_of_drop hpolicy, delayHandler_of_drop (s := s.writeH 0 w) hpolicy]
      exact delayXHandler_writeH_zero s w
    | buffer =>
      rw [delayHandler_of_buffer hpolicy, delayHandler_of_buffer (s := s.writeH 0 w) hpolicy, hone]
      rfl
  | delayX => exact delayXHandler_writeH_zero s w
  | test => rfl

theorem routedHandler_writeH_zero (c : Config) (k : BitVec 14) (s : State) (w : Word) :
    routedHandler c k (s.writeH 0 w) =
      ((routedHandler c k s).1, (routedHandler c k s).2.writeH 0 w) :=
  routedHandler_induction
    (motive := fun h => h (s.writeH 0 w) = ((h s).1, (h s).2.writeH 0 w)) c k
    (fun x => cmdHandler_writeH_zero x s w) rfl

/-- Completion computes the command word from bits 13:0 of the one it finds. -/
theorem completedCmd_congr (c : Config) (o : HandlerOutcome) {v w : Word}
    (h : v &&& 0x3FFF#16 = w &&& 0x3FFF#16) : completedCmd c o v = completedCmd c o w := by
  cases o with
  | success =>
    rw [completedCmd, completedCmd, clearPending_clearError, clearPending_clearError]
    exact h
  | failure ec =>
    rw [completedCmd_failure, completedCmd_failure, cmdAfterFailure, cmdAfterFailure]
    split
    · rfl
    · rw [h]

theorem complete_writeH_zero_congr (o : HandlerOutcome) {s : State} {v w : Word}
    (hfile : 1 < s.regs.length) (h : v &&& 0x3FFF#16 = w &&& 0x3FFF#16) :
    complete o (s.writeH 0 v) = complete o (s.writeH 0 w) := by
  have hcmd : ∀ x : Word, (s.writeH 0 x).cmd = x := fun x => writeH_H_same s 0 x (by omega)
  rw [complete_eq _ _ (by simpa), complete_eq _ _ (by simpa), hcmd, hcmd, writeH_cfg, writeH_cfg,
    completedCmd_congr _ _ h]
  cases o <;> simp [State.writeH]

/-- Two command words that agree on `P` and on bits 13:0 are dispatched to the same state. -/
theorem exec_dispatch_writeH_zero_congr {s : State} {v w : Word} (hfile : 1 < s.regs.length)
    (hv : cmdPending v = true) (hw : cmdPending w = true) (hcode : cmdCode v = cmdCode w)
    (hlow : v &&& 0x3FFF#16 = w &&& 0x3FFF#16) :
    exec .dispatch (s.writeH 0 v) = exec .dispatch (s.writeH 0 w) := by
  have hcmd : ∀ x : Word, (s.writeH 0 x).cmd = x := fun x => writeH_H_same s 0 x (by omega)
  have hlength := (routedHandler_advance s.cfg (cmdCode w) s).length
  rw [exec_dispatch_of_pending (by rwa [hcmd]), exec_dispatch_of_pending (by rwa [hcmd]), hcmd, hcmd,
    writeH_cfg, writeH_cfg, hcode, runHandler, runHandler, routedHandler_writeH_zero,
    routedHandler_writeH_zero, complete_writeH_zero_congr _ (by omega) hlow]

theorem cmdPending_setError (w : Word) : cmdPending (setError w) = cmdPending w := by
  simp [cmdPending, setError]

theorem setError_low (w : Word) : setError w &&& 0x3FFF#16 = w &&& 0x3FFF#16 := by
  ext i hi
  simp only [setError]
  interval_cases i <;> simp

theorem clearError_low (w : Word) : clearError w &&& 0x3FFF#16 = w &&& 0x3FFF#16 := by
  rw [clearError, BitVec.and_assoc]
  rfl

/-- Settles O23: neither the route, nor a handler, nor completion looks at bit 14. -/
theorem writtenErrorBitIsIgnored : Obligations.WrittenErrorBitIsIgnored := by
  intro s hsized hpending
  exact exec_dispatch_writeH_zero_congr hsized.one_lt_length
    ((cmdPending_setError s.cmd).trans hpending) ((cmdPending_mask s.cmd).trans hpending)
    ((cmdCode_setError s.cmd).trans (cmdCode_clearError s.cmd).symm)
    ((setError_low s.cmd).trans (clearError_low s.cmd).symm)

/-! ### The operands of a command (R160, R178) -/

/-- Two states that agree on what a command may depend on. -/
structure SameOperands (s u : State) : Prop where
  cfg : u.cfg = s.cfg
  regs : ∀ i, i < 3 → u.H i = s.H i
  levels : u.levels = s.levels
  draws : u.draws = s.draws

/-- What a run of one block from `s` to `t` and of another from `u` to `v` show: the same three registers at the end,
and the same events appended. -/
structure SameEffect (s u t v : State) : Prop where
  regs : ∀ i, i < 3 → v.H i = t.H i
  trace : ∃ ev, t.trace = s.trace ++ ev ∧ v.trace = u.trace ++ ev

theorem SameOperands.refl_effect {s u : State} (h : SameOperands s u) : SameEffect s u s u where
  regs := h.regs
  trace := ⟨[], by simp⟩

/-- Two runs that write no register and append the same events. -/
theorem SameOperands.effect_of_events {s u t v : State} (h : SameOperands s u) (ev : List Event)
    (ht : t.regs = s.regs) (hv : v.regs = u.regs) (hts : t.trace = s.trace ++ ev)
    (hvu : v.trace = u.trace ++ ev) : SameEffect s u t v where
  regs i hi := by rw [H_congr ht, H_congr hv, h.regs i hi]
  trace := ⟨ev, hts, hvu⟩

theorem SameOperands.sampledLevel_eq {s u : State} (h : SameOperands s u) :
    sampledLevel u = sampledLevel s := by
  simp only [sampledLevel, configuredInput, drawLevel, emit_levels, emit_draws, h.levels, h.draws,
    h.regs 1 (by decide)]
  split <;> rfl

theorem SameOperands.delayX_effect {s u : State} (h : SameOperands s u) :
    SameEffect s u (delayXHandler s).2 (delayXHandler u).2 :=
  h.effect_of_events [.xportSuspend, .wait (s.H 1), .xportResume s.cfg.baud] rfl rfl
    (emitResume_emitWait_emitSuspend_trace _ _)
    (by rw [← h.regs 1 (by decide), ← h.cfg]; exact emitResume_emitWait_emitSuspend_trace _ _)

/-- Writing the same word to `H[2]` after runs of the same effect. -/
theorem SameEffect.writeH_two {s u t v : State} (h : SameEffect s u t v) (w : Word)
    (ht : 2 < t.regs.length) (hv : 2 < v.regs.length) :
    SameEffect s u (t.writeH 2 w) (v.writeH 2 w) where
  regs i hi := by
    rw [writeH_H, writeH_H, h.regs i hi]
    simp only [ht, hv]
  trace := h.trace

/-- A handler ends in the same way and has the same effect on two blocks that agree on its operands. -/
theorem cmdHandler_sameEffect (x : Cmd) {s u : State} (h : SameOperands s u)
    (hs : 2 < s.regs.length) (hu : 2 < u.regs.length) :
    (cmdHandler x u).1 = (cmdHandler x s).1 ∧ SameEffect s u (cmdHandler x s).2 (cmdHandler x u).2 := by
  have hone : u.H 1 = s.H 1 := h.regs 1 (by decide)
  have htwo : u.H 2 = s.H 2 := h.regs 2 (by decide)
  cases x with
  | setPin =>
    by_cases hpin : s.H 1 ∈ s.cfg.setPinAllowed
    · rw [cmdHandler, setPinHandler_of_mem hpin, setPinHandler_of_mem (by rwa [hone, h.cfg]), hone, htwo]
      exact ⟨rfl, h.effect_of_events [.levelWrite (s.H 1) (s.H 2), .dirConfig (s.H 1) .output]
        rfl rfl (by simp) (by simp)⟩
    · rw [cmdHandler, setPinHandler_of_not_mem hpin, setPinHandler_of_not_mem (by rwa [hone, h.cfg])]
      exact ⟨rfl, h.refl_effect⟩
  | getPin =>
    by_cases hpin : s.H 1 ∈ s.cfg.getPinDisallowed
    · rw [cmdHandler, getPinHandler_of_mem hpin, getPinHandler_of_mem (by rwa [hone, h.cfg])]
      exact ⟨rfl, h.refl_effect⟩
    · rw [cmdHandler, getPinHandler_of_not_mem hpin, getPinHandler_of_not_mem (by rwa [hone, h.cfg]),
        h.sampledLevel_eq]
      have hsampled : SameEffect s u (sampled s) (sampled u) :=
        h.effect_of_events _ (sampled_regs s) (sampled_regs u) (sampled_trace s)
          (by rw [sampled_trace, hone, h.sampledLevel_eq])
      exact ⟨rfl, hsampled.writeH_two _ (by simpa) (by simpa)⟩
  | delay =>
    rw [cmdHandler]
    cases hpolicy : s.cfg.delayRxPolicy with
    | drop =>
      rw [delayHandler_of_drop hpolicy, delayHandler_of_drop (by rwa [h.cfg])]
      exact ⟨rfl, h.delayX_effect⟩
    | buffer =>
      rw [delayHandler_of_buffer hpolicy, delayHandler_of_buffer (by rwa [h.cfg]), hone]
      exact ⟨rfl, h.effect_of_events [.wait (s.H 1)] rfl rfl (by simp) (by simp)⟩
  | delayX => exact ⟨rfl, h.delayX_effect⟩
  | test => exact ⟨rfl, h.refl_effect⟩

theorem routedHandler_sameEffect (c : Config) (k : BitVec 14) {s u : State} (h : SameOperands s u)
    (hs : 2 < s.regs.length) (hu : 2 < u.regs.length) :
    (routedHandler c k u).1 = (routedHandler c k s).1 ∧
      SameEffect s u (routedHandler c k s).2 (routedHandler c k u).2 :=
  routedHandler_induction
    (motive := fun f => (f u).1 = (f s).1 ∧ SameEffect s u (f s).2 (f u).2) c k
    (fun x => cmdHandler_sameEffect x h hs hu) ⟨rfl, h.refl_effect⟩

@[simp] theorem complete_trace (o : HandlerOutcome) (s : State) : (complete o s).trace = s.trace := by
  rw [complete_frame]

theorem complete_failure_H_one {s : State} (ec : ErrCode) (h : 1 < s.regs.length) :
    (complete (.failure ec) s).H 1 = errPattern ec := by
  rw [complete_failure ec h, afterFailure_H_one h]

/-- Completion with the same outcome under the same configuration keeps the effect the same. -/
theorem SameEffect.complete {s u t v : State} (h : SameEffect s u t v) (o : HandlerOutcome)
    (hcfg : v.cfg = t.cfg) (ht : 1 < t.regs.length) (hv : 1 < v.regs.length) :
    SameEffect s u (complete o t) (complete o v) where
  regs i hi := by
    match i, hi with
    | 0, _ =>
      have hcmd : v.cmd = t.cmd := h.regs 0 (by decide)
      rw [← cmd_eq_H, ← cmd_eq_H, complete_cmd o t ht, complete_cmd o v hv, hcfg, hcmd]
    | 1, _ =>
      cases o with
      | success => rw [complete_success_H_one, complete_success_H_one, h.regs 1 (by decide)]
      | failure ec => rw [complete_failure_H_one ec ht, complete_failure_H_one ec hv]
    | 2, _ =>
      rw [complete_H_ge_two o t 2 (by decide), complete_H_ge_two o v 2 (by decide),
        h.regs 2 (by decide)]
  trace := by
    rw [complete_trace, complete_trace]
    exact h.trace

/-- The same code selects the same handler, and completion follows. -/
theorem exec_dispatch_sameEffect {s u t v : State} (h : SameOperands s u) (hs : 2 < s.regs.length)
    (hu : 2 < u.regs.length) (hst : exec .dispatch s = .next t) (huv : exec .dispatch u = .next v) :
    SameEffect s u t v := by
  have hcmd : u.cmd = s.cmd := h.regs 0 (by decide)
  cases hpending : cmdPending s.cmd with
  | false =>
    rw [exec_dispatch_of_not_pending hpending] at hst
    rw [exec_dispatch_of_not_pending (by rwa [hcmd])] at huv
    cases hst
    cases huv
    exact h.refl_effect
  | true =>
    obtain rfl := exec_dispatch_eq_complete hpending hst
    obtain rfl := exec_dispatch_eq_complete (by rwa [hcmd]) huv
    rw [hcmd, h.cfg]
    obtain ⟨hout, heffect⟩ := routedHandler_sameEffect s.cfg (cmdCode s.cmd) h hs hu
    have hadvance := routedHandler_advance s.cfg (cmdCode s.cmd) s
    have hadvance' := routedHandler_advance s.cfg (cmdCode s.cmd) u
    rw [hout]
    exact heffect.complete _ (by rw [hadvance'.cfg, hadvance.cfg, h.cfg])
      (by rw [hadvance.length]; omega) (by rw [hadvance'.length]; omega)

/-- Settles O28: the route, the handlers and completion look at nothing else. -/
theorem commandDependsOnlyOnItsOperands : Obligations.CommandDependsOnlyOnItsOperands := by
  intro s u t v hs hu hcfg hregs hlevels hdraws hst huv
  obtain ⟨hthree, htrace⟩ := exec_dispatch_sameEffect ⟨hcfg, hregs, hlevels, hdraws⟩
    hs.three_le hu.three_le hst huv
  exact ⟨hthree, htrace⟩

end Sys2Proof.Machine

namespace Sys2Proof.Machine

open Sys2Proof

/-! ### Poll cycles (R150) -/

theorem exec_pollCycle_none (s : State) : exec (.pollCycle none) s = exec .dispatch s := rfl

theorem exec_pollCycle_some (op : BusOp) (s : State) :
    exec (.pollCycle (some op)) s = andThen (exec (busInstr op) s) (exec .dispatch) := by
  rw [exec_busInstr]
  rfl

theorem exec_pollCycle_of_next {op : BusOp} {s t : State} (h : exec (busInstr op) s = .next t) :
    exec (.pollCycle (some op)) s = exec .dispatch t := by
  rw [exec_pollCycle_some, h, andThen]

/-- Settles O39: the cycle is the sequence of its two parts. -/
theorem pollCycleIsRequestThenDispatch : Obligations.PollCycleIsRequestThenDispatch := by
  refine ⟨exec_pollCycle_none, fun op s t => exec_pollCycle_of_next, fun op s r h => ?_⟩
  rw [exec_pollCycle_some, h, andThen]

/-- A cycle with a well-formed request completes, with `P` = 0 and the one response of its request. -/
theorem exec_pollCycle_completes {op : BusOp} (hwf : op.wf = true) (s : State) :
    ∃ t r, exec (.pollCycle (some op)) s = .next t ∧ cmdPending t.cmd = false ∧
      t.responses = s.responses ++ [r] := by
  obtain ⟨u, r, hbus, hresponses⟩ := performBus_next op s hwf
  obtain ⟨t, hdispatch, hclear⟩ := exec_dispatch_completes u
  refine ⟨t, r, ?_, hclear, (exec_dispatch_responses hdispatch).trans hresponses⟩
  rw [exec_pollCycle_of_next ((exec_busInstr op s).trans hbus), hdispatch]

/-! ### Writes at address 0 (R122, R146) -/

/-- A write at address 0 that fits the file puts its first word into `CMD` and emits nothing. -/
theorem exec_wrHold_zero {s : State} (hsized : s.Sized) {len v : Word} {vs : List Word}
    (hvs : (v :: vs).length = len.toNat) (hlen : len.toNat ≤ s.cfg.n) :
    ∃ t, exec (.wrHold 0 len (v :: vs)) s = .next t ∧
      t = (memWrite s 0 (v :: vs)).respond ⟨.ok, none⟩ ∧ t.Sized ∧ t.cmd = v := by
  have hfile : (v :: vs).length ≤ s.regs.length := by rw [hvs, hsized.2]; exact hlen
  refine ⟨_, exec_wrHold_of_holdRange hvs (holdRange_zero_iff.mpr hlen), rfl, ⟨hsized.1, ?_⟩, ?_⟩
  · exact (writeWords_length (v :: vs) s.regs 0).trans hsized.2
  · exact memWrite_cmd_of_zero hfile

/-- Settles O30: the second write replaces the word of the first one before any `DISPATCH` has read it. -/
theorem overwrittenCommandNeverRuns : Obligations.OverwrittenCommandNeverRuns := by
  intro s l m v w vs ws hsized hvs hws hl hm
  obtain ⟨t, ht, rfl, htsized, -⟩ := exec_wrHold_zero hsized hvs hl
  obtain ⟨u, hu, rfl, -, hcmd⟩ := exec_wrHold_zero htsized hws hm
  refine ⟨_, _, ht, hu, hcmd, rfl, ?_⟩
  rw [dispatchRunsDecodedCommandWord, hcmd]
  rfl

/-- A command's literal in `CMD` selects the command (R92). -/
theorem exec_dispatch_of_literal {s : State} {x : Cmd} (hwf : s.cfg.wf = true)
    (h : s.cmd = literal s.cfg x) : exec .dispatch s = exec (cmdInstr x) s := by
  rw [dispatchRunsDecodedCommandWord, h, decodeCmd_literal hwf]

/-- Settles O40: the write leaves the literal in `CMD`, where the `DISPATCH` of the same cycle finds it. -/
theorem pollCycleRunsSubmittedCommand : Obligations.PollCycleRunsSubmittedCommand := by
  intro s x len args hsized hargs hlen
  obtain ⟨t, ht, rfl, htsized, hcmd⟩ := exec_wrHold_zero hsized (v := literal s.cfg x) hargs hlen
  obtain ⟨u, hu, hclear⟩ := exec_dispatch_completes
    ((memWrite s 0 (literal s.cfg x :: args)).respond ⟨.ok, none⟩)
  refine ⟨_, u, ht, ?_, ?_, hclear⟩
  · exact (exec_pollCycle_of_next (op := .wrHold 0 len (literal s.cfg x :: args)) ht).trans hu
  · exact (exec_dispatch_of_literal htsized.1 hcmd).symm.trans hu

/-! ### `CALL` and `CLRERR` (R108) -/

theorem exec_call (x : Cmd) (args : List Word) (k : Word) (s : State) :
    exec (.call x args k) s =
      andThen (exec (.pollCycle (some (callWrite s.cfg x args))) s)
        (exec (.pollCycle (some (.rdHold 0 k)))) := rfl

/-- The write of a `CALL` announces the number of words it has. -/
theorem callWrite_wf (c : Config) (x : Cmd) {args : List Word} (h : args.length + 1 ≤ 65535) :
    (callWrite c x args).wf = true := by
  refine (dataLengthOk_iff _ _).mpr ?_
  rw [BitVec.toNat_ofNat, Nat.mod_eq_of_lt (by omega), List.length_cons]

/-- Settles O41: both cycles hold a well-formed request, and each ends with `P` = 0 and one response more. -/
theorem callIsTwoPollCycles : Obligations.CallIsTwoPollCycles := by
  intro s x args k hargs
  obtain ⟨t, r, ht, -, htresponses⟩ := exec_pollCycle_completes (callWrite_wf s.cfg x hargs) s
  obtain ⟨u, q, hu, hclear, huresponses⟩ := exec_pollCycle_completes (op := .rdHold 0 k) rfl t
  refine ⟨t, u, ht, hu, ?_, hclear, r, q, ?_⟩
  · rw [exec_call, ht, andThen, hu]
  · rw [huresponses, htresponses, List.append_assoc]
    rfl

theorem exec_clrErr (s : State) : exec .clrErr s = exec (.wrHold 0 1 [0]) s := rfl

theorem State.Sized.three_le_n {s : State} (h : s.Sized) : 3 ≤ s.cfg.n := (Config.wf_n h.1).1

/-- Settles O42: it is the write of one word at address 0, which every file has. -/
theorem clearErrorEffect : Obligations.ClearErrorEffect := by
  intro s hsized
  have hlen : (1 : Word).toNat ≤ s.cfg.n := Nat.le_trans (by decide) hsized.three_le_n
  rw [exec_clrErr, exec_wrHold_of_holdRange rfl (holdRange_zero_iff.mpr hlen)]
  rfl

/-- The registers after a completed test command with parameters `a` and `b`. -/
def afterTest (s : State) (a b : Word) : List Word :=
  ((s.regs.set 0 (s.cfg.codeTest.setWidth 16)).set 1 a).set 2 b

theorem cmdAfterSuccess_submitted (k : BitVec 14) :
    cmdAfterSuccess (0x8000#16 ||| k.setWidth 16) = k.setWidth 16 := by
  ext i hi
  simp only [cmdAfterSuccess]
  interval_cases i <;> simp

theorem take_three_set {α : Type} {l : List α} (h : 3 ≤ l.length) (a b c : α) :
    (((l.set 0 a).set 1 b).set 2 c).take 3 = [a, b, c] := by
  match l, h with
  | _ :: _ :: _ :: _, _ => rfl

theorem set_zero_of_three_set {α : Type} (l : List α) (a b c d : α) :
    (((l.set 0 a).set 1 b).set 2 c).set 0 d = ((l.set 0 d).set 1 b).set 2 c := by
  rw [List.set_comm c d (by decide), List.set_comm b d (by decide), List.set_set]

/-- The writing cycle of the test command: its parameters stay in the file, and `CMD` holds the bare code. -/
theorem exec_pollCycle_test {s : State} (hsized : s.Sized) (a b : Word) :
    exec (.pollCycle (some (callWrite s.cfg .test [a, b]))) s = .next { s with
      regs := afterTest s a b
      responses := s.responses ++ [⟨.ok, none⟩] } := by
  obtain ⟨t, hwrite, ht, htsized, hcmd⟩ := exec_wrHold_zero hsized (len := 3) (v := literal s.cfg .test)
    (vs := [a, b]) rfl hsized.three_le_n
  have hregs : t.regs = ((s.regs.set 0 (literal s.cfg .test)).set 1 a).set 2 b := by rw [ht]; rfl
  have hcfg : t.cfg = s.cfg := by rw [ht]; rfl
  have hdispatch : exec .dispatch t = exec .test t :=
    exec_dispatch_of_literal (x := .test) htsized.1 (by rw [hcmd, hcfg])
  rw [exec_pollCycle_of_next (op := callWrite s.cfg .test [a, b]) hwrite, hdispatch,
    (testEffect t htsized).2, hcmd, literal, cmdAfterSuccess_submitted, hregs,
    set_zero_of_three_set, ht]
  rfl

/-- A reading cycle that finds no command pending reads and changes nothing. -/
theorem exec_pollCycle_rdHold_of_not_pending {s : State} {len : Word}
    (hpending : cmdPending s.cmd = false) (hlen : len.toNat ≤ s.cfg.n) :
    exec (.pollCycle (some (.rdHold 0 len))) s =
      .next (s.respond ⟨.ok, some (s.regs.take len.toNat)⟩) := by
  have hread := exec_rdHold_of_holdRange (holdRange_zero_iff.mpr hlen)
  rw [exec_pollCycle_of_next (op := .rdHold 0 len) hread, exec_dispatch_of_not_pending (by rwa [respond_cmd])]
  rfl

/-- Settles O43: the first cycle writes and runs the command, the second one finds none and reads. -/
theorem endToEndTestCommand : Obligations.EndToEndTestCommand := by
  intro s a b hsized
  have hfirst := exec_pollCycle_test hsized a b
  have hpending := dispatchAlwaysClearsPending.2 _ _ _ hfirst
  rw [exec_call, hfirst, andThen, exec_pollCycle_rdHold_of_not_pending (len := 3) hpending
    hsized.three_le_n]
  have hread : (afterTest s a b).take (3 : Word).toNat = [s.cfg.codeTest.setWidth 16, a, b] :=
    take_three_set hsized.three_le _ _ _
  simp only [hread, State.respond, List.append_assoc]
  rfl

/-! ### Every operation completes (R207, R271) -/

/-- Settles O44: a handler always returns, a well-formed request has a step, and the rest are sequences of these. -/
theorem everyWellFormedOperationCompletes : Obligations.EveryWellFormedOperationCompletes := by
  intro i s hwf
  have hbus : ∀ op : BusOp, op.wf = true → ∃ t, exec (busInstr op) s = .next t := by
    intro op hop
    obtain ⟨t, -, ht, -⟩ := performBus_next op s hop
    exact ⟨t, (exec_busInstr op s).trans ht⟩
  cases i with
  | setPin => exact ⟨_, rfl⟩
  | getPin => exact ⟨_, rfl⟩
  | delay => exact ⟨_, rfl⟩
  | delayX => exact ⟨_, rfl⟩
  | test => exact ⟨_, rfl⟩
  | illCmd k => exact ⟨_, rfl⟩
  | noCmd r => exact ⟨s, rfl⟩
  | rdHold addr len => exact hbus (.rdHold addr len) rfl
  | wrHold addr len vs => exact hbus (.wrHold addr len vs) hwf
  | rdIn addr len => exact hbus (.rdIn addr len) rfl
  | wrIn addr len vs => exact hbus (.wrIn addr len vs) rfl
  | dispatch =>
    obtain ⟨t, ht, -⟩ := exec_dispatch_completes s
    exact ⟨t, ht⟩
  | pollCycle op =>
    cases op with
    | none =>
      obtain ⟨t, ht, -⟩ := exec_dispatch_completes s
      exact ⟨t, ht⟩
    | some op =>
      obtain ⟨t, -, ht, -⟩ := exec_pollCycle_completes (op := op) hwf s
      exact ⟨t, ht⟩
  | call x args k =>
    obtain ⟨-, u, -, -, hu, -⟩ := callIsTwoPollCycles s x args k (of_decide_eq_true hwf)
    exact ⟨u, hu⟩
  | clrErr => exact hbus (.wrHold 0 1 [0]) rfl

/-! ### Who writes `P` (R22, R123) -/

/-- A block write leaves `CMD` as it is, or puts its first word there, being one at address 0. -/
theorem memWrite_cmd_cases (s : State) (a : Nat) (vs : List Word) :
    (memWrite s a vs).cmd = s.cmd ∨ a = 0 ∧ ∃ v rest, vs = v :: rest ∧ (memWrite s a vs).cmd = v := by
  simp only [State.cmd, State.H, memWrite_regs, List.getD_eq_getElem?_getD, writeWords_getElem?]
  split
  · next h =>
    obtain ⟨ha, hlength, -⟩ := h
    obtain rfl : a = 0 := by omega
    obtain _ | ⟨v, rest⟩ := vs
    · simp at hlength
    · exact .inr ⟨rfl, v, rest, rfl, rfl⟩
  · exact .inl rfl

/-- What any `WR_HOLD` that completes leaves in `CMD`. -/
theorem exec_wrHold_cmd_cases {s t : State} {addr len : Word} {vs : List Word}
    (h : exec (.wrHold addr len vs) s = .next t) :
    t.cmd = s.cmd ∨ addr = 0 ∧ ∃ v rest, vs = v :: rest ∧ t.cmd = v := by
  obtain rfl | rfl := exec_wrHold_cases h
  · obtain hsame | ⟨haddr, v, rest, hvs, hv⟩ := memWrite_cmd_cases s addr.toNat vs
    · exact .inl hsame
    · exact .inr ⟨BitVec.eq_of_toNat_eq haddr, v, rest, hvs, hv⟩
  · exact .inl rfl

theorem exec_rdHold_cmd {s t : State} {addr len : Word} (h : exec (.rdHold addr len) s = .next t) :
    t.cmd = s.cmd := by
  obtain ⟨-, rfl⟩ | rfl := exec_rdHold_cases h <;> rfl

theorem exec_rdIn_cmd {s t : State} {addr len : Word} (h : exec (.rdIn addr len) s = .next t) :
    t.cmd = s.cmd := by
  obtain ⟨-, rfl⟩ | rfl := exec_rdIn_cases h <;> rfl

theorem runHandler_not_pending {h : State → HandlerOutcome × State} {s t : State}
    (hrun : runHandler h s = .next t) : cmdPending t.cmd = false := by
  obtain rfl := runHandler_eq_next.mp hrun
  exact complete_not_pending _ _

theorem exec_call_not_pending {x : Cmd} {args : List Word} {k : Word} {s t : State}
    (h : exec (.call x args k) s = .next t) : cmdPending t.cmd = false := by
  obtain ⟨u, -, hlast⟩ := andThen_eq_next.mp h
  exact dispatchAlwaysClearsPending.2 (some (.rdHold 0 k)) u t hlast

/-- What every operation leaves of `P`: it is as before, or it is the bit that a `WR_HOLD` at address 0 wrote, or it is
0 after an operation that holds a dispatch or is `CLRERR`. -/
theorem exec_pending_cases {i : Instr} {s t : State} (h : exec i s = .next t) :
    cmdPending t.cmd = cmdPending s.cmd ∨
    (∃ len v rest, i = .wrHold 0 len (v :: rest) ∧ cmdPending t.cmd = cmdPending v) ∨
    (cmdPending t.cmd = false ∧
      match i with
      | .noCmd _ | .rdHold _ _ | .rdIn _ _ | .wrIn _ _ _ | .wrHold _ _ _ => False
      | _ => True) := by
  cases i with
  | setPin => exact .inr (.inr ⟨runHandler_not_pending h, trivial⟩)
  | getPin => exact .inr (.inr ⟨runHandler_not_pending h, trivial⟩)
  | delay => exact .inr (.inr ⟨runHandler_not_pending h, trivial⟩)
  | delayX => exact .inr (.inr ⟨runHandler_not_pending h, trivial⟩)
  | test => exact .inr (.inr ⟨runHandler_not_pending h, trivial⟩)
  | illCmd k => exact .inr (.inr ⟨runHandler_not_pending h, trivial⟩)
  | noCmd r => cases h; exact .inl rfl
  | rdHold addr len => exact .inl (by rw [exec_rdHold_cmd h])
  | wrHold addr len vs =>
    obtain hsame | ⟨rfl, v, rest, rfl, hv⟩ := exec_wrHold_cmd_cases h
    · exact .inl (by rw [hsame])
    · exact .inr (.inl ⟨len, v, rest, rfl, by rw [hv]⟩)
  | rdIn addr len => exact .inl (by rw [exec_rdIn_cmd h])
  | wrIn addr len vs => cases h; exact .inl rfl
  | dispatch => exact .inr (.inr ⟨exec_dispatch_not_pending h, trivial⟩)
  | pollCycle op => exact .inr (.inr ⟨dispatchAlwaysClearsPending.2 op s t h, trivial⟩)
  | call x args k => exact .inr (.inr ⟨exec_call_not_pending h, trivial⟩)
  | clrErr =>
    obtain hsame | ⟨-, v, rest, hvs, hv⟩ := exec_wrHold_cmd_cases (addr := 0) (len := 1) (vs := [0]) h
    · exact .inl (by rw [hsame])
    · cases hvs
      exact .inr (.inr ⟨by rw [hv]; rfl, trivial⟩)

/-- Settles O29: `P` changes by the word a `WR_HOLD` puts at address 0, or it is cleared by one of the operations that
may clear it. -/
theorem whoSetsAndClearsPending : Obligations.WhoSetsAndClearsPending := by
  intro i s t h
  obtain hsame | ⟨len, v, rest, rfl, hv⟩ | ⟨hclear, hi⟩ := exec_pending_cases h
  · exact ⟨fun h0 h1 => absurd (h1.symm.trans (hsame.trans h0)) nofun,
      fun h1 h0 => absurd (h1.symm.trans (hsame.symm.trans h0)) nofun⟩
  · exact ⟨fun _ h1 => ⟨len, v, rest, rfl, hv ▸ h1⟩, fun _ h0 => ⟨rfl, v, rest, rfl, hv ▸ h0⟩⟩
  · refine ⟨fun _ h1 => absurd (h1.symm.trans hclear) nofun, fun _ _ => ?_⟩
    cases i with
    | wrHold addr len vs => exact hi.elim
    | _ => exact hi

end Sys2Proof.Machine

namespace Sys2Proof.Machine

open Sys2Proof

/-! ### What the trace says of a pin (R39, R257) -/

/-- What the trace says of the pins is in `t` what it is in `s`. -/
def PinsKept (s t : State) : Prop :=
  ∀ p, pinMode p t.trace = pinMode p s.trace ∧ pinValue p t.trace = pinValue p s.trace

theorem pinsKept_of_trace_eq {s t : State} (h : t.trace = s.trace) : PinsKept s t := by
  intro p
  rw [h]
  exact ⟨rfl, rfl⟩

/-- Events that name no pin. -/
theorem pinsKept_of_trace_append {s t : State} {ev : List Event} (h : t.trace = s.trace ++ ev)
    (hev : ∀ p, pinMode p ev = none ∧ pinValue p ev = none) : PinsKept s t := by
  intro p
  rw [h, pinMode_append, pinValue_append, (hev p).1, (hev p).2]
  exact ⟨rfl, rfl⟩

theorem pinMode_setPin (p q v : Word) (tr : List Event) :
    pinMode p (tr ++ [.levelWrite q v, .dirConfig q .output]) =
      if q = p then some .output else pinMode p tr := by
  rw [pinMode_append]
  by_cases h : q = p <;> simp [pinMode, h]

theorem pinValue_setPin (p q v : Word) (tr : List Event) :
    pinValue p (tr ++ [.levelWrite q v, .dirConfig q .output]) =
      if q = p then some v else pinValue p tr := by
  rw [pinValue_append]
  by_cases h : q = p <;> simp [pinValue, h]

theorem pinMode_getPin (p q : Word) (l : Level) (tr : List Event) :
    pinMode p (tr ++ [.dirConfig q .inputPullup, .levelRead q l]) =
      if q = p then some .inputPullup else pinMode p tr := by
  rw [pinMode_append]
  by_cases h : q = p <;> simp [pinMode, h]

theorem pinValue_getPin (p q : Word) (l : Level) (tr : List Event) :
    pinValue p (tr ++ [.dirConfig q .inputPullup, .levelRead q l]) = pinValue p tr := by
  rw [pinValue_append]
  rfl

/-- A bus request emits nothing. -/
theorem exec_busInstr_trace {op : BusOp} {s t : State} (h : exec (busInstr op) s = .next t) :
    t.trace = s.trace := by
  cases op with
  | rdHold addr len => obtain ⟨-, rfl⟩ | rfl := exec_rdHold_cases h <;> rfl
  | wrHold addr len vs => obtain rfl | rfl := exec_wrHold_cases h <;> rfl
  | rdIn addr len => obtain ⟨-, rfl⟩ | rfl := exec_rdIn_cases h <;> rfl
  | wrIn addr len vs =>
    cases h
    rfl

theorem complete_pinsKept (o : HandlerOutcome) (s : State) : PinsKept s (complete o s) :=
  pinsKept_of_trace_eq (complete_trace o s)

theorem exec_delayX_pinsKept {s t : State} (h : exec .delayX s = .next t) : PinsKept s t := by
  obtain rfl := runHandler_eq_next.mp h
  refine pinsKept_of_trace_append (ev := [.xportSuspend, .wait (s.H 1), .xportResume s.cfg.baud]) ?_
    fun _ => ⟨rfl, rfl⟩
  rw [complete_trace]
  exact emitResume_emitWait_emitSuspend_trace _ _

theorem exec_delay_pinsKept {s t : State} (h : exec .delay s = .next t) : PinsKept s t := by
  cases hpolicy : s.cfg.delayRxPolicy with
  | drop =>
    rw [exec_delay_of_drop hpolicy] at h
    exact exec_delayX_pinsKept h
  | buffer =>
    obtain rfl := runHandler_eq_next.mp h
    refine pinsKept_of_trace_append (ev := [.wait (s.H 1)]) ?_ fun _ => ⟨rfl, rfl⟩
    rw [complete_trace, delayHandler_of_buffer hpolicy, emitWait_trace]

theorem exec_setPin_pinsKept {s t : State} (hsized : s.Sized) (hpin : s.H 1 ∉ s.cfg.setPinAllowed)
    (h : exec .setPin s = .next t) : PinsKept s t := by
  rw [exec_setPin_of_not_mem hsized hpin] at h
  cases h
  exact pinsKept_of_trace_eq rfl

theorem exec_getPin_pinsKept {s t : State} (hsized : s.Sized) (hpin : s.H 1 ∈ s.cfg.getPinDisallowed)
    (h : exec .getPin s = .next t) : PinsKept s t := by
  rw [exec_getPin_of_mem hsized hpin] at h
  cases h
  exact pinsKept_of_trace_eq rfl

theorem exec_illCmd_pinsKept {k : BitVec 14} {s t : State} (h : exec (.illCmd k) s = .next t) :
    PinsKept s t := by
  rw [exec_illCmd] at h
  obtain rfl := runHandler_eq_next.mp h
  exact complete_pinsKept _ s

theorem exec_test_pinsKept {s t : State} (h : exec .test s = .next t) : PinsKept s t := by
  obtain rfl := runHandler_eq_next.mp h
  exact complete_pinsKept _ s

/-- A command that touches no pin, by its kind. -/
theorem exec_cmdInstr_pinsKept {x : Cmd} {s t : State} (hsized : s.Sized)
    (hleaves : LeavesPins s (cmdInstr x)) (h : exec (cmdInstr x) s = .next t) : PinsKept s t := by
  cases x with
  | setPin => exact exec_setPin_pinsKept hsized hleaves h
  | getPin => exact exec_getPin_pinsKept hsized hleaves h
  | delay => exact exec_delay_pinsKept h
  | delayX => exact exec_delayX_pinsKept h
  | test => exact exec_test_pinsKept h

/-- A `DISPATCH` that touches no pin runs a command that touches none. -/
theorem leavesPins_of_selected {x : Cmd} {s : State} (hselected : Selected s x)
    (hleaves : LeavesPins s .dispatch) : LeavesPins s (cmdInstr x) := by
  obtain ⟨hset, hget⟩ := hleaves
  cases x with
  | setPin => exact hset hselected
  | getPin => exact hget hselected
  | delay => trivial
  | delayX => trivial
  | test => trivial

theorem exec_dispatch_pinsKept {s t : State} (hsized : s.Sized) (hleaves : LeavesPins s .dispatch)
    (h : exec .dispatch s = .next t) : PinsKept s t := by
  cases hpending : cmdPending s.cmd with
  | false =>
    rw [exec_dispatch_of_not_pending hpending] at h
    cases h
    exact pinsKept_of_trace_eq rfl
  | true =>
    cases hroute : route s.cfg (cmdCode s.cmd) with
    | some x =>
      rw [exec_dispatch_of_route_some hpending hroute] at h
      exact exec_cmdInstr_pinsKept hsized
        (leavesPins_of_selected ⟨hpending, route_eq_some hroute⟩ hleaves) h
    | none =>
      rw [exec_dispatch_of_route_none hpending hroute 0] at h
      exact exec_illCmd_pinsKept h

theorem exec_pinsKept {i : Instr} {s t : State} (hsized : s.Sized) (hleaves : LeavesPins s i)
    (h : exec i s = .next t) : PinsKept s t := by
  cases i with
  | setPin => exact exec_setPin_pinsKept hsized hleaves h
  | getPin => exact exec_getPin_pinsKept hsized hleaves h
  | delay => exact exec_delay_pinsKept h
  | delayX => exact exec_delayX_pinsKept h
  | test => exact exec_test_pinsKept h
  | illCmd k => exact exec_illCmd_pinsKept h
  | noCmd r => cases h; exact pinsKept_of_trace_eq rfl
  | rdHold addr len => exact pinsKept_of_trace_eq (exec_busInstr_trace (op := .rdHold addr len) h)
  | wrHold addr len vs =>
    exact pinsKept_of_trace_eq (exec_busInstr_trace (op := .wrHold addr len vs) h)
  | rdIn addr len => exact pinsKept_of_trace_eq (exec_busInstr_trace (op := .rdIn addr len) h)
  | wrIn addr len vs => exact pinsKept_of_trace_eq (exec_busInstr_trace (op := .wrIn addr len vs) h)
  | dispatch => exact exec_dispatch_pinsKept hsized hleaves h
  | pollCycle op => exact hleaves.elim
  | call x args k => exact hleaves.elim
  | clrErr => exact pinsKept_of_trace_eq (exec_busInstr_trace (op := .wrHold 0 1 [0]) h)

/-- Settles O37: SetPin's two events and GetPin's direction are all that names a pin in what an operation emits. -/
theorem pinConfigurationFollowsCommands : Obligations.PinConfigurationFollowsCommands := by
  intro s t hsized
  refine ⟨fun hpin h => ?_, fun hpin h => ?_, fun i => exec_pinsKept hsized⟩
  · rw [exec_setPin_of_mem hsized hpin] at h
    cases h
    refine ⟨by rw [pinMode_setPin, if_pos rfl], by rw [pinValue_setPin, if_pos rfl], fun p hp => ?_⟩
    rw [pinMode_setPin, pinValue_setPin, if_neg hp.symm, if_neg hp.symm]
    exact ⟨rfl, rfl⟩
  · rw [exec_getPin_of_not_mem hsized hpin] at h
    cases h
    simp only [sampled_trace]
    exact ⟨by rw [pinMode_getPin, if_pos rfl], fun p => pinValue_getPin p _ _ _,
      fun p hp => by rw [pinMode_getPin, if_neg hp.symm]⟩

/-- Settles O38: an operation leaves the transport as it was or open, and emits whole sequences (`exec_advance`). -/
theorem everyOperationEmitsWholeSequences : Obligations.EveryOperationEmitsWholeSequences := by
  intro i s t hxport h
  have hadvance := exec_advance h
  refine ⟨?_, hadvance.trace⟩
  obtain hsame | hopened := hadvance.xport
  · rwa [hsame]
  · rw [hopened]
    exact nofun

end Sys2Proof.Machine

namespace Sys2Proof.Machine

open Sys2Proof

/-! ### Reset, boot and the step (R36, R107, R244) -/

theorem step_created {s : State} (h : s.boot = .created) : step s = .next (bootRegister s) := by
  unfold step
  rw [h]

theorem step_registered {s : State} (h : s.boot = .registered) : step s = .next (bootOpen s) := by
  unfold step
  rw [h]

theorem step_tick {s : State} {d : Nat} {rest : List Input} (hboot : s.boot = .running)
    (hscript : s.script = .tick d :: rest) : step s = .next (doTick d { s with script := rest }) := by
  rw [step_running hboot, stepRunning_tick hscript]

theorem step_level {s : State} {pin : Word} {v : Level} {rest : List Input} (hboot : s.boot = .running)
    (hscript : s.script = .level pin v :: rest) :
    step s = .next (doLevel pin v { s with script := rest }) := by
  rw [step_running hboot, stepRunning_level hscript]

theorem le_passTime_nowMs (d : Nat) (s : State) : s.nowMs ≤ (passTime d s).nowMs :=
  (passTime_advance d s).now

/-- Settles O46: each stage is one step that sets its own fields and lets time pass. -/
theorem bootOpensTransport : Obligations.BootOpensTransport := by
  refine ⟨fun s h => ⟨_, step_created h, ?_, rfl⟩, fun s h => ⟨_, step_registered h, ?_, rfl⟩,
    fun c => ⟨_, _, step_created rfl, step_registered rfl, rfl, rfl, rfl, rfl, rfl, rfl, rfl⟩⟩
  · exact le_passTime_nowMs 0 { s with boot := .registered }
  · exact le_passTime_nowMs 0 { s with boot := .running, xport := .opened s.cfg.baud }

/-- Settles O47: `N` zeros, no fixed level, a closed transport and no event. -/
theorem invariantAtReset : Obligations.InvariantAtReset := fun _ hwf =>
  { sized := ⟨hwf, List.length_replicate⟩
    levels := .nil
    transport := rfl
    trace := rfl }

/-! ### The invariant -/

theorem transportOk_running {s : State} (hboot : s.boot = .running) :
    s.transportOk = true ↔ s.xport = .opened s.cfg.baud := by
  unfold State.transportOk
  rw [hboot]
  exact decide_eq_true_iff

theorem transportOk_booting {s : State} (hboot : s.boot ≠ .running) :
    s.transportOk = true ↔ s.xport = .closed := by
  unfold State.transportOk
  split
  · next h => exact absurd h hboot
  · exact decide_eq_true_iff
  · exact decide_eq_true_iff

/-- What an operation of the running loop keeps or extends carries the invariant over. -/
theorem Advance.inv {s t : State} (h : Advance s t) (hboot : s.boot = .running) (hinv : s.Inv) :
    t.Inv where
  sized := by
    obtain ⟨hwf, hlength⟩ := hinv.sized
    exact ⟨h.cfg ▸ hwf, by rw [h.length, h.cfg, hlength]⟩
  levels := h.levels hinv.levels
  transport := by
    refine (transportOk_running (h.boot.trans hboot)).mpr ?_
    rw [h.cfg]
    obtain hsame | hopened := h.xport
    · rw [hsame]
      exact (transportOk_running hboot).mp hinv.transport
    · exact hopened
  trace := by
    obtain ⟨ev, htrace, hok⟩ := h.trace
    rw [htrace, h.cfg]
    exact traceOk_append _ _ _ hinv.trace hok

/-- The script is no part of the invariant. -/
theorem State.Inv.with_script {s : State} (h : s.Inv) (rest : List Input) :
    State.Inv { s with script := rest } where
  sized := h.sized
  levels := h.levels
  transport := h.transport
  trace := h.trace

theorem stepRunning_inv {s t : State} (hboot : s.boot = .running) (hinv : s.Inv)
    (h : stepRunning s = .next t) : t.Inv := by
  obtain ⟨-, u, hu, rfl⟩ | ⟨d, rest, -, rfl⟩ | ⟨p, v, rest, -, rfl⟩ | ⟨p, rest, i, u, -, -, hu, rfl⟩ :=
    stepRunning_cases h
  · exact ((exec_advance hu).trans (passTime_advance 0 u)).inv hboot hinv
  · exact ⟨hinv.sized, hinv.levels, hinv.transport, hinv.trace⟩
  · exact ⟨hinv.sized, setLevel_wf hinv.levels, hinv.transport, hinv.trace⟩
  · exact ((exec_advance hu).trans (passTime_advance 0 u)).inv hboot (hinv.with_script rest)

/-- Settles O48: before the loop runs the transport is closed, and the last stage of boot opens it; in the loop a
directive writes the time or the levels, and an operation keeps or extends what the invariant speaks of. -/
theorem stepKeepsInvariant : Obligations.StepKeepsInvariant := by
  intro s t hinv h
  obtain ⟨hboot, rfl⟩ | ⟨-, rfl⟩ | ⟨hboot, hrun⟩ := step_cases h
  · have hclosed : s.xport = .closed := (transportOk_booting (by simp [hboot])).mp hinv.transport
    exact ⟨hinv.sized, hinv.levels, (transportOk_booting (by simp)).mpr hclosed, hinv.trace⟩
  · exact ⟨hinv.sized, hinv.levels, (transportOk_running (bootOpen_boot s)).mpr rfl, hinv.trace⟩
  · exact stepRunning_inv hboot hinv hrun

/-! ### The canonical schedule (R14) -/

/-- A poll cycle at the port is decoded to an operation that ends with a `DISPATCH`. -/
theorem exec_not_pending_of_isPollCycle {p : PortOp} {i : Instr} {s t : State}
    (hpoll : PortOp.isPollCycle p = true) (hdecode : decodePort p = .ok i) (h : exec i s = .next t) :
    cmdPending t.cmd = false := by
  cases p with
  | bus r => cases hpoll
  | strobe =>
    cases hdecode
    exact exec_dispatch_not_pending h
  | poll r =>
    obtain ⟨op, rfl⟩ : ∃ op, i = .pollCycle op := by
      cases r with
      | none => cases hdecode; exact ⟨none, rfl⟩
      | some r =>
        rw [decodePort] at hdecode
        split at hdecode
        · next op _ => cases hdecode; exact ⟨some op, rfl⟩
        · cases hdecode
    exact dispatchAlwaysClearsPending.2 op s t h
  | call x args k =>
    rw [decodePort, decodeCall] at hdecode
    split at hdecode
    · cases hdecode
      exact exec_call_not_pending h
    · cases hdecode
  | clrErr => cases hpoll

theorem scriptAdmitted_cons {s : State} {a : Input} {rest : List Input} (h : s.scriptAdmitted = true)
    (hscript : s.script = a :: rest) :
    a.admitted s.cfg.schedule = true ∧ rest.all (Input.admitted s.cfg.schedule) = true := by
  rw [State.scriptAdmitted, hscript, List.all_cons, Bool.and_eq_true] at h
  exact h

theorem scriptAdmitted_of_eq {s t : State} (hcfg : t.cfg = s.cfg) (hscript : t.script = s.script) :
    t.scriptAdmitted = s.scriptAdmitted := by
  rw [State.scriptAdmitted, State.scriptAdmitted, hcfg, hscript]

theorem isPollCycle_of_admitted {p : PortOp} (h : (Input.op p).admitted .canonical = true) :
    PortOp.isPollCycle p = true := h

@[simp] theorem passTime_cmd (d : Nat) (s : State) : (passTime d s).cmd = s.cmd := rfl

/-- Settles O49: every operation that the schedule admits ends with a `DISPATCH`, and no directive writes `CMD`. -/
theorem canonicalScheduleNeverFindsPending : Obligations.CanonicalScheduleNeverFindsPending := by
  intro s t hschedule hadmitted hpending h
  obtain ⟨-, rfl⟩ | ⟨-, rfl⟩ | ⟨-, hrun⟩ := step_cases h
  · exact ⟨hadmitted, hpending⟩
  · exact ⟨hadmitted, hpending⟩
  obtain ⟨-, u, hu, rfl⟩ | ⟨d, rest, hscript, rfl⟩ | ⟨p, v, rest, hscript, rfl⟩ |
    ⟨p, rest, i, u, hscript, hdecode, hu, rfl⟩ := stepRunning_cases hrun
  · have hadvance := exec_advance hu
    exact ⟨(scriptAdmitted_of_eq hadvance.cfg hadvance.script).trans hadmitted,
      (congrArg cmdPending (passTime_cmd 0 u)).trans (exec_dispatch_not_pending hu)⟩
  · exact ⟨(scriptAdmitted_cons hadmitted hscript).2, hpending⟩
  · exact ⟨(scriptAdmitted_cons hadmitted hscript).2, hpending⟩
  · obtain ⟨hop, hrest⟩ := scriptAdmitted_cons hadmitted hscript
    rw [hschedule] at hop
    have hadvance := exec_advance hu
    exact ⟨(scriptAdmitted_of_eq hadvance.cfg hadvance.script).trans hrest,
      (congrArg cmdPending (passTime_cmd 0 u)).trans
        (exec_not_pending_of_isPollCycle (isPollCycle_of_admitted hop) hdecode hu)⟩

/-! ### What every step extends (R36, R42) -/

/-- The outputs and the time of a state only grow. -/
structure Grows (s t : State) : Prop where
  trace : s.trace <+: t.trace
  responses : s.responses <+: t.responses
  now : s.nowMs ≤ t.nowMs

theorem Advance.grows {s t : State} (h : Advance s t) : Grows s t where
  trace := by
    obtain ⟨ev, htrace, -⟩ := h.trace
    exact ⟨ev, htrace.symm⟩
  responses := by
    obtain ⟨rs, hresponses⟩ := h.responses
    exact ⟨rs, hresponses.symm⟩
  now := h.now

/-- A step that emits and answers nothing leaves the outputs as they are. -/
theorem Grows.of_same_outputs {s t : State} (htrace : t.trace = s.trace)
    (hresponses : t.responses = s.responses) (hnow : s.nowMs ≤ t.nowMs) : Grows s t where
  trace := ⟨[], by rw [htrace, List.append_nil]⟩
  responses := ⟨[], by rw [hresponses, List.append_nil]⟩
  now := hnow

theorem stepRunning_grows {s t : State} (h : stepRunning s = .next t) : Grows s t := by
  obtain ⟨-, u, hu, rfl⟩ | ⟨d, rest, -, rfl⟩ | ⟨p, v, rest, -, rfl⟩ | ⟨p, rest, i, u, -, -, hu, rfl⟩ :=
    stepRunning_cases h
  · exact ((exec_advance hu).trans (passTime_advance 0 u)).grows
  · exact .of_same_outputs rfl rfl (Nat.le_add_right _ _)
  · exact .of_same_outputs rfl rfl (Nat.le_refl _)
  · obtain ⟨htrace, hresponses, hnow⟩ := ((exec_advance hu).trans (passTime_advance 0 u)).grows
    exact ⟨htrace, hresponses, hnow⟩

theorem step_grows {s t : State} (h : step s = .next t) : Grows s t := by
  obtain ⟨-, rfl⟩ | ⟨-, rfl⟩ | ⟨-, hrun⟩ := step_cases h
  · exact .of_same_outputs rfl rfl (le_passTime_nowMs 0 { s with boot := .registered })
  · exact .of_same_outputs rfl rfl
      (le_passTime_nowMs 0 { s with boot := .running, xport := .opened s.cfg.baud })
  · exact stepRunning_grows hrun

/-- Settles O51: an operation appends to the two lists, and nothing else in a step writes them. -/
theorem traceOnlyGrows : Obligations.TraceOnlyGrows :=
  fun _ _ h => ⟨(step_grows h).trace, (step_grows h).responses⟩

/-- Settles O52: every part of a step adds to the time, `TICK d` the `d` milliseconds it names. -/
theorem timeNeverDecreases : Obligations.TimeNeverDecreases :=
  ⟨fun _ _ h => (step_grows h).now, fun _ _ _ hboot hscript => step_tick hboot hscript⟩

/-! ### A step of the loop (R18, R150) -/

theorem step_op {s : State} {p : PortOp} {rest : List Input} {i : Instr} (hboot : s.boot = .running)
    (hscript : s.script = .op p :: rest) (hdecode : decodePort p = .ok i) :
    step s = elapse (exec i { s with script := rest }) := by
  rw [step_running hboot, stepRunning_op hscript hdecode]

theorem step_op_rejected {s : State} {p : PortOp} {rest : List Input} {e : DecodeError}
    (hboot : s.boot = .running) (hscript : s.script = .op p :: rest) (hdecode : decodePort p = .error e) :
    step s = .refused (.badRequest e) := by
  rw [step_running hboot]
  unfold stepRunning
  rw [hscript]
  simp only [hdecode]

theorem step_empty {s : State} (hboot : s.boot = .running) (hscript : s.script = []) :
    step s = elapse (exec .dispatch s) := by
  rw [step_running hboot, stepRunning_empty hscript]

/-- Time passes by some amount after an operation, and the draw of it is counted (log entry 4). -/
theorem elapse_next (u : State) :
    ∃ d, elapse (.next u) = .next { u with nowMs := u.nowMs + d, draws := u.draws + 1 } :=
  ⟨Config.freeMs u.draws, rfl⟩

/-- Settles O53: the step of the loop is a case distinction on what is presented next. -/
theorem stepRunsPresentedOperation : Obligations.StepRunsPresentedOperation := by
  intro s hboot
  refine ⟨fun p rest i u hscript hdecode h => ?_, fun p rest e => step_op_rejected hboot,
    fun hscript u h => ?_⟩
  · rw [step_op hboot hscript hdecode, h]
    exact elapse_next u
  · rw [step_empty hboot hscript, h]
    exact elapse_next u

/-- A 16-bit row is a command word, stored in `H[0]` with the strobe presented (log entries 7 and 8). -/
theorem withFetchWord_command (s : State) (w : Word) :
    s.withFetchWord 16 w.toNat = presentRaw s (.cmdw w) := by
  rw [State.withFetchWord, rawOfTableWord, if_pos rfl, BitVec.ofNat_toNat, BitVec.setWidth_eq]

/-- Settles O54: the strobe is a `DISPATCH`, which runs what the stored word decodes to. -/
theorem placedCommandWordRuns : Obligations.PlacedCommandWordRuns := by
  intro s w hsized
  have hcmd : (s.writeH 0 w).cmd = w := writeH_H_same s 0 w (Nat.zero_lt_of_lt hsized.one_lt_length)
  rw [withFetchWord_command, step_op (p := .strobe) (rest := s.script) rfl rfl rfl,
    dispatchRunsDecodedCommandWord]
  refine congrArg (fun v => elapse (exec (decodeCmd s.cfg v) _)) hcmd

/-! ### The answers the environment fixes (R40, R107) -/

/-- A GetPin on a pin with a fixed answer samples that answer. -/
theorem sampledLevel_of_fixed {s : State} {v : Level} (h : s.levels.lookup (s.H 1) = some v) :
    sampledLevel s = v :=
  drawLevel_fixed h

theorem lookup_sampled_levels (s : State) (p : Word) :
    (sampled s).levels.lookup p = if p = s.H 1 then none else s.levels.lookup p := by
  rw [sampled_eq]
  exact drawLevel_lookup (s.H 1) p (configuredInput s)

/-- Settles O55: the directive replaces the answer of its pin, and a GetPin reads it and removes it. -/
theorem levelDirectiveFixesNextAnswer : Obligations.LevelDirectiveFixesNextAnswer := by
  refine ⟨fun s pin v rest hboot hscript => ?_, fun s v hsized hpin hfixed => ?_⟩
  · exact ⟨_, step_level hboot hscript, rfl, fun p => lookup_setLevel pin p v s.levels⟩
  · have hthree := hsized.three_le
    refine ⟨_, exec_getPin_of_not_mem hsized hpin, ?_, ?_, lookup_sampled_levels s⟩
    · rw [sampledLevel_of_fixed hfixed]
      exact (writeH_H_other (s.writeH 2 (levelWord v)) 0 2 _ (by decide)).trans
        (writeH_H_same s 2 (levelWord v) hthree)
    · simp [sampledLevel_of_fixed hfixed]

end Sys2Proof.Machine
